-- ==== Sys2Proof/Word.lean ====
section
/-!
DEFINITION. The value types of krallice/c8: the bit vectors the spec adds, compares or masks, and the register index.
-/

namespace Sys2Proof

/-- An 8-bit unsigned value: a general register, a timer, an immediate, a byte of memory (R4, R7, R17, R25). -/
abbrev Byte := BitVec 8

/-- A 16-bit unsigned value: pc, the index register, a stack entry, an instruction word (R4, R10, R11, R14, R40). -/
abbrev Word := BitVec 16

/-- A 4-bit field of an instruction word (R41). -/
abbrev Nibble := BitVec 4

/-- The 12-bit address field `nnn` of an instruction word (R4 `ADDR_WIDTH`, R41). -/
abbrev Addr := BitVec 12

/-- The index of a general register, 0 to 15 (R7: every index is reachable). -/
abbrev RegIdx := Fin 16

end Sys2Proof
end

