-- ==== Sys2Proof/Config.lean ====
section
/-!
DEFINITION. The implementation parameters of 00_scope.md R4. The spec leaves none of them open, so none is opaque and the
model has no free value.
-/

namespace Sys2Proof.Config

/-- `MEM_SIZE`: the number of bytes of memory; addresses are 0x000 to 0xFFF (R4, R25). -/
abbrev memSize : Nat := 4096

/-- `NREG`: the number of general registers (R4, R7). -/
abbrev numRegs : Nat := 16

/-- `FLAG_REG`: the index of VF (R4, R8). -/
abbrev flagReg : RegIdx := 15

/-- `STACK_DEPTH`: the number of call-stack entries (R4, R14). -/
abbrev stackDepth : Nat := 16

/-- `ENTRY`: the reset value of pc and the offset a program is loaded at (R4, R24, R34). -/
abbrev entry : Word := 0x0200#16

/-- The number of bytes of one instruction (R4 `INSN_WIDTH`, R40). -/
abbrev insnBytes : Nat := 2

end Sys2Proof.Config
end

