-- ==== Sys2Proof/Syntax.lean ====
section
/-!
DEFINITION. The instructions of the c8 subset, one constructor per row of spec/opcode_table.json (30_encoding.md R44), their
names and formats (R43), and the lines of the spec's example notation (R48).
-/

namespace Sys2Proof

/-- The 16 instructions with their operands. Every operand has exactly the width of its field (R41, R42), so a term of this
type is an instruction the encoding can hold. -/
inductive Instr where
  /-- `1nnn` JUMP (R52). -/
  | jump (nnn : Addr)
  /-- `2nnn` CALL (R53). -/
  | call (nnn : Addr)
  /-- `3xkk` SKIP_EQ_IMM (R55). -/
  | skipEqImm (x : RegIdx) (kk : Byte)
  /-- `4xkk` SKIP_NEQ_IMM (R56). -/
  | skipNeqImm (x : RegIdx) (kk : Byte)
  /-- `5xy0` SKIP_EQ_REG (R57). -/
  | skipEqReg (x y : RegIdx)
  /-- `6xkk` LOAD_IMM (R58). -/
  | loadImm (x : RegIdx) (kk : Byte)
  /-- `7xkk` ADD_IMM (R59). -/
  | addImm (x : RegIdx) (kk : Byte)
  /-- `8xy0` LOAD_REG (R62). -/
  | loadReg (x y : RegIdx)
  /-- `8xy1` OR (R63). -/
  | or (x y : RegIdx)
  /-- `8xy2` AND (R64). -/
  | and (x y : RegIdx)
  /-- `8xy3` XOR (R65). -/
  | xor (x y : RegIdx)
  /-- `8xy4` ADD_REG (R66). -/
  | addReg (x y : RegIdx)
  /-- `8xy5` SUB_REG (R67). -/
  | subReg (x y : RegIdx)
  /-- `8xy6` SHIFT_RIGHT (R68); `y` is encoded but not read (R45). -/
  | shiftRight (x y : RegIdx)
  /-- `8xy7` SUBN_REG (R69). -/
  | subnReg (x y : RegIdx)
  /-- `8xyE` SHIFT_LEFT (R70); `y` is encoded but not read (R45). -/
  | shiftLeft (x y : RegIdx)
  deriving DecidableEq, Repr

/-- The names of the 16 instructions, in the order of the opcode table. -/
inductive Mnemonic where
  | jump | call | skipEqImm | skipNeqImm | skipEqReg | loadImm | addImm | loadReg
  | or | and | xor | addReg | subReg | shiftRight | subnReg | shiftLeft
  deriving DecidableEq, Repr

/-- The instruction formats of R43: `A` holds an address, `I` a register and an immediate byte, `R` two registers and a
sub-opcode. -/
inductive Format where
  | A | I | R
  deriving DecidableEq, Repr

/-- The format each instruction is encoded in (R43). -/
def Mnemonic.format : Mnemonic → Format
  | .jump | .call => .A
  | .skipEqImm | .skipNeqImm | .loadImm | .addImm => .I
  | .skipEqReg | .loadReg | .or | .and | .xor | .addReg | .subReg | .shiftRight | .subnReg | .shiftLeft => .R

/-- The name of an instruction. -/
def Instr.mnemonic : Instr → Mnemonic
  | .jump _ => .jump
  | .call _ => .call
  | .skipEqImm _ _ => .skipEqImm
  | .skipNeqImm _ _ => .skipNeqImm
  | .skipEqReg _ _ => .skipEqReg
  | .loadImm _ _ => .loadImm
  | .addImm _ _ => .addImm
  | .loadReg _ _ => .loadReg
  | .or _ _ => .or
  | .and _ _ => .and
  | .xor _ _ => .xor
  | .addReg _ _ => .addReg
  | .subReg _ _ => .subReg
  | .shiftRight _ _ => .shiftRight
  | .subnReg _ _ => .subnReg
  | .shiftLeft _ _ => .shiftLeft

/-- An operand as it is written on a line of the notation of R48: a register `V<n>` or a number, before any check that it
fits. -/
inductive AsmOperand where
  | reg (n : Nat)
  | num (n : Nat)
  deriving DecidableEq, Repr

/-- A line of the notation of R48: an instruction name with its written operands, or `.word`. There is no
pseudo-instruction (R49). -/
inductive AsmLine where
  | ins (m : Mnemonic) (operands : List AsmOperand)
  | word (n : Nat)
  deriving DecidableEq, Repr

end Sys2Proof
end

