-- ==== Sys2Proof/WellFormed.lean ====
section
/-!
DEFINITION. The checks of 30_encoding.md R48 on a written line: a register is V0 to VF, `nnn` fits in 12 bits, `kk` in 8, a
`.word` in 16, and the operands are those of the instruction's format. A line that passes denotes exactly one instruction or
one word. (A term of `Instr` needs no check: its operand types are its field widths.)
-/

namespace Sys2Proof

/-- A written register, if it is one of V0 to VF (R48). -/
def AsmOperand.reg? : AsmOperand → Option RegIdx
  | .reg n => if h : n < Config.numRegs then some ⟨n, h⟩ else none
  | .num _ => none

/-- A written number, if it fits in `w` bits (R48). -/
def AsmOperand.num? (w : Nat) : AsmOperand → Option (BitVec w)
  | .reg _ => none
  | .num n => if n < 2 ^ w then some (BitVec.ofNat w n) else none

/-- The instruction of format `A` with this name. -/
def Mnemonic.instrA? (m : Mnemonic) (nnn : Addr) : Option Instr :=
  match m with
  | .jump => some (.jump nnn)
  | .call => some (.call nnn)
  | _ => none

/-- The instruction of format `I` with this name. -/
def Mnemonic.instrI? (m : Mnemonic) (x : RegIdx) (kk : Byte) : Option Instr :=
  match m with
  | .skipEqImm => some (.skipEqImm x kk)
  | .skipNeqImm => some (.skipNeqImm x kk)
  | .loadImm => some (.loadImm x kk)
  | .addImm => some (.addImm x kk)
  | _ => none

/-- The instruction of format `R` with this name. -/
def Mnemonic.instrR? (m : Mnemonic) (x y : RegIdx) : Option Instr :=
  match m with
  | .skipEqReg => some (.skipEqReg x y)
  | .loadReg => some (.loadReg x y)
  | .or => some (.or x y)
  | .and => some (.and x y)
  | .xor => some (.xor x y)
  | .addReg => some (.addReg x y)
  | .subReg => some (.subReg x y)
  | .shiftRight => some (.shiftRight x y)
  | .subnReg => some (.subnReg x y)
  | .shiftLeft => some (.shiftLeft x y)
  | _ => none

/-- The instruction a written line denotes, `none` if a check refuses the line (or it is a `.word`). `SHIFT_RIGHT Vx` and
`SHIFT_LEFT Vx` mean `y = 0` (R48). -/
def AsmLine.instr? : AsmLine → Option Instr
  | .ins m [a] =>
    match m with
    | .jump | .call => do m.instrA? (← a.num? 12)
    | .shiftRight | .shiftLeft => do m.instrR? (← a.reg?) 0
    | _ => none
  | .ins m [a, b] =>
    match m.format with
    | .A => none
    | .I => do m.instrI? (← a.reg?) (← b.num? 8)
    | .R => do m.instrR? (← a.reg?) (← b.reg?)
  | .ins _ _ => none
  | .word _ => none

/-- The whole check of a written line: it denotes an instruction, or it is a `.word` that fits in 16 bits. -/
def AsmLine.wf : AsmLine → Bool
  | .word n => n < 2 ^ 16
  | l => l.instr?.isSome

end Sys2Proof
end

