-- ==== Sys2Proof/Decode.lean ====
section
/-!
DEFINITION. The fields of an instruction word (30_encoding.md R41), the decoder (R44), total on all words and on any bytes, and
after it the encoder written from the formats of R43, the assembler of R48 and the opcode table as data.
-/

namespace Sys2Proof

/-! ## Fields of an instruction word (R41) -/

/-- `f = op[15:12]`, the instruction family. -/
def opF (op : Word) : Nibble := op.extractLsb' 12 4

/-- `x = op[11:8]`, the target register. -/
def opX (op : Word) : RegIdx := (op.extractLsb' 8 4 : Nibble).toFin

/-- `y = op[7:4]`, the source register. -/
def opY (op : Word) : RegIdx := (op.extractLsb' 4 4 : Nibble).toFin

/-- `n = op[3:0]`, the sub-opcode. -/
def opN (op : Word) : Nibble := op.extractLsb' 0 4

/-- `kk = op[7:0]`, the immediate byte. -/
def opKK (op : Word) : Byte := op.extractLsb' 0 8

/-- `nnn = op[11:0]`, the address. -/
def opNNN (op : Word) : Addr := op.extractLsb' 0 12

/-! ## The decoder (R44) -/

/-- Family 8: the sub-opcode selects the instruction (R44); `none` is `Unknown`. -/
def decodeFamily8 (op : Word) : Option Instr :=
  match opN op with
  | 0x0#4 => some (.loadReg (opX op) (opY op))
  | 0x1#4 => some (.or (opX op) (opY op))
  | 0x2#4 => some (.and (opX op) (opY op))
  | 0x3#4 => some (.xor (opX op) (opY op))
  | 0x4#4 => some (.addReg (opX op) (opY op))
  | 0x5#4 => some (.subReg (opX op) (opY op))
  | 0x6#4 => some (.shiftRight (opX op) (opY op))
  | 0x7#4 => some (.subnReg (opX op) (opY op))
  | 0xE#4 => some (.shiftLeft (opX op) (opY op))
  | _ => none

/-- `decode(op)` of R44: the instruction a word encodes, `none` where R44 says `Unknown` (the unsupported words of R46). -/
def decode (op : Word) : Option Instr :=
  match opF op with
  | 0x1#4 => some (.jump (opNNN op))
  | 0x2#4 => some (.call (opNNN op))
  | 0x3#4 => some (.skipEqImm (opX op) (opKK op))
  | 0x4#4 => some (.skipNeqImm (opX op) (opKK op))
  | 0x5#4 => if opN op = 0x0#4 then some (.skipEqReg (opX op) (opY op)) else none
  | 0x6#4 => some (.loadImm (opX op) (opKK op))
  | 0x7#4 => some (.addImm (opX op) (opKK op))
  | 0x8#4 => decodeFamily8 op
  | _ => none

/-- Why a byte sequence is not an instruction. -/
inductive DecodeReject where
  /-- The word matches no row of the table (R46). -/
  | unsupported (op : Word)
  /-- Fewer than two bytes; the fetch of R50 never gives this (log 15). -/
  | truncated
  deriving DecidableEq, Repr

/-- The big-endian combination of two bytes, `(hi << 8) | lo` (R5, R31). -/
def wordOfBytes (hi lo : Byte) : Word := hi ++ lo

/-- The byte at the lower address, `op[15:8]` (R31). -/
def hiByte (op : Word) : Byte := op.extractLsb' 8 8

/-- The byte at the higher address, `op[7:0]` (R31). -/
def loByte (op : Word) : Byte := op.extractLsb' 0 8

/-- The decoder on a byte sequence: the instruction its first two bytes encode and the rest, or the named rejection. Every
instruction is two bytes long (R40). -/
def decodeBytes : List Byte → Except DecodeReject (Instr × List Byte)
  | hi :: lo :: rest =>
    match decode (wordOfBytes hi lo) with
    | some i => .ok (i, rest)
    | none => .error (.unsupported (wordOfBytes hi lo))
  | _ => .error .truncated

/-- The instruction the decoder reads from a table word: bits at and above `nbits` are 0, the word is laid out as the hardware
stores it (high byte first, R31) and given to `decodeBytes`. -/
def decodeTableWord (nbits w : Nat) : Option Instr :=
  let op := BitVec.ofNat 16 (w % 2 ^ nbits)
  match decodeBytes [hiByte op, loByte op] with
  | .ok (i, _) => some i
  | .error _ => none

/-! ## The encoder (R43) -/

/-- The encoding field of a register index (R42). -/
def regField (x : RegIdx) : Nibble := BitVec.ofFin x

/-- Format `A`: `f`, `nnn`. -/
def wordA (f : Nibble) (nnn : Addr) : Word := f ++ nnn

/-- Format `I`: `f`, `x`, `kk`. -/
def wordI (f : Nibble) (x : RegIdx) (kk : Byte) : Word := f ++ (regField x ++ kk : BitVec 12)

/-- Format `R`: `f`, `x`, `y`, `n`. -/
def wordR (f : Nibble) (x y : RegIdx) (n : Nibble) : Word :=
  f ++ (regField x ++ (regField y ++ n : BitVec 8) : BitVec 12)

/-- The word of an instruction, from the formats and patterns of R43 and the table of R44. -/
def encode : Instr → Word
  | .jump nnn => wordA 0x1#4 nnn
  | .call nnn => wordA 0x2#4 nnn
  | .skipEqImm x kk => wordI 0x3#4 x kk
  | .skipNeqImm x kk => wordI 0x4#4 x kk
  | .skipEqReg x y => wordR 0x5#4 x y 0x0#4
  | .loadImm x kk => wordI 0x6#4 x kk
  | .addImm x kk => wordI 0x7#4 x kk
  | .loadReg x y => wordR 0x8#4 x y 0x0#4
  | .or x y => wordR 0x8#4 x y 0x1#4
  | .and x y => wordR 0x8#4 x y 0x2#4
  | .xor x y => wordR 0x8#4 x y 0x3#4
  | .addReg x y => wordR 0x8#4 x y 0x4#4
  | .subReg x y => wordR 0x8#4 x y 0x5#4
  | .shiftRight x y => wordR 0x8#4 x y 0x6#4
  | .subnReg x y => wordR 0x8#4 x y 0x7#4
  | .shiftLeft x y => wordR 0x8#4 x y 0xE#4

/-- The two bytes of an instruction in address order (R31). -/
def encodeBytes (i : Instr) : List Byte := [hiByte (encode i), loByte (encode i)]

/-- The word a written line stands for, `none` if the line is refused (R48). -/
def assemble : AsmLine → Option Word
  | .word n => if n < 2 ^ 16 then some (BitVec.ofNat 16 n) else none
  | l => l.instr?.map encode

/-! ## The opcode table as data -/

/-- A row of the opcode table: the words of `m` are those that agree with `bits` where `mask` has ones. -/
structure OpcodeRow where
  m : Mnemonic
  bits : Word
  mask : Word
  deriving DecidableEq, Repr

/-- spec/opcode_table.json, row by row: name, match, mask. -/
def opcodeTable : List OpcodeRow :=
  [⟨.jump, 0x1000, 0xF000⟩, ⟨.call, 0x2000, 0xF000⟩, ⟨.skipEqImm, 0x3000, 0xF000⟩, ⟨.skipNeqImm, 0x4000, 0xF000⟩,
   ⟨.skipEqReg, 0x5000, 0xF00F⟩, ⟨.loadImm, 0x6000, 0xF000⟩, ⟨.addImm, 0x7000, 0xF000⟩, ⟨.loadReg, 0x8000, 0xF00F⟩,
   ⟨.or, 0x8001, 0xF00F⟩, ⟨.and, 0x8002, 0xF00F⟩, ⟨.xor, 0x8003, 0xF00F⟩, ⟨.addReg, 0x8004, 0xF00F⟩,
   ⟨.subReg, 0x8005, 0xF00F⟩, ⟨.shiftRight, 0x8006, 0xF00F⟩, ⟨.subnReg, 0x8007, 0xF00F⟩, ⟨.shiftLeft, 0x800E, 0xF00F⟩]

/-- Whether a word lies in a row of the table. -/
def OpcodeRow.holds (r : OpcodeRow) (op : Word) : Bool := op &&& r.mask == r.bits

/-- The names of the rows a word lies in. -/
def rowsOf (op : Word) : List Mnemonic := (opcodeTable.filter (·.holds op)).map (·.m)

end Sys2Proof
end

