-- ==== Sys2Proof/Machine/State.lean ====
section
/-!
DEFINITION. The state of the block (10_state.md), the step errors (60_exceptions.md R71) and the state after reset (R24).
-/

namespace Sys2Proof.Machine

/-- Memory as plain data: (address, byte) pairs. An unlisted address reads `Memory.unlisted`. -/
abbrev Memory := List Host.Cell

/-- What an unlisted address reads as: the reset contents of every byte (R24; log 1). -/
abbrev Memory.unlisted : Byte := 0x00#8

/-- The one canonical form: addresses strictly rising, all inside memory (R25), no entry equal to what an unlisted address reads
as. Two canonical memories with the same bytes are the same list. -/
abbrev Memory.wf (m : Memory) : Prop :=
  m.Pairwise (fun c d => c.1 < d.1) ∧ ∀ c ∈ m, c.1 < Config.memSize ∧ c.2 ≠ Memory.unlisted

/-- The block's state between operations (10_state.md). The instruction latch is not part of it (R19; log 2). -/
structure State where
  /-- `V[0..15]`, the general registers; `V[15]` is VF (R7, R8). -/
  v : Vector Byte 16
  /-- `I`, the index register, which no instruction uses (R10). -/
  i : Word
  /-- `pc`, the address of the next instruction to fetch (R11). -/
  pc : Word
  /-- `stack[0..15]`, the return addresses (R14, R16). -/
  stack : Vector Word 16
  /-- `sp`, the number of occupied stack entries, 0 to 16 (R15; log 3). -/
  sp : Fin 17
  /-- `DT`, the delay timer (R17). -/
  dt : Byte
  /-- `ST`, the sound timer (R17). -/
  st : Byte
  /-- `mem[0..4095]` (R25). -/
  mem : Memory
  deriving DecidableEq, Repr

/-- The errors a step can end in. There is no other (R76), and a step that ends in one changes no state (R77). -/
inductive Fault where
  /-- Raised by CALL when `sp = 16` (R73). Safe: the spec names the error, and the block's state is as before the step. -/
  | stackOverflow
  /-- Raised by the step when the fetched word `op` is unsupported (R74). Safe: the spec names the error, and the block's state
  is as before the step. -/
  | unknownInstruction (op : Word)
  deriving DecidableEq, Repr

/-- The reasons the model has no meaning for an instruction. No meaning of this model answers with one. -/
inductive Refusal where
  /-- An instruction without a meaning, by its mnemonic. Safe: nothing is claimed of it. No arm raises it. -/
  | notModelled (mnemonic : String)
  deriving DecidableEq, Repr

/-- The state after RESET: every element at the value of R24. -/
def State.reset : State where
  v := Vector.replicate 16 0x00#8
  i := 0x0000#16
  pc := Config.entry
  stack := Vector.replicate 16 0x0000#16
  sp := 0
  dt := 0x00#8
  st := 0x00#8
  mem := []

end Sys2Proof.Machine
end

