-- ==== Sys2Proof/Machine/Ops.lean ====
section
/-!
DEFINITION. The named operations over memory and registers, the writes of a step and their commitment (00_scope.md R6), the
instruction fetch (30_encoding.md R50) and the raising of an error (60_exceptions.md R77, R79).
-/

namespace Sys2Proof.Machine

/-! ## Memory (20_memory.md R26, R27) -/

/-- The byte a list of cells gives an address, ignoring the bounds of memory. -/
def Memory.lookup : Memory → Nat → Byte
  | [], _ => Memory.unlisted
  | (k, b) :: rest, a => if k = a then b else Memory.lookup rest a

/-- The cells with `b` at address `a`, in canonical form: writing what an unlisted address reads as removes the entry. -/
def Memory.put : Memory → Nat → Byte → Memory
  | [], a, b => if b = Memory.unlisted then [] else [(a, b)]
  | (k, c) :: rest, a, b =>
    if a < k then
      if b = Memory.unlisted then (k, c) :: rest else (a, b) :: (k, c) :: rest
    else if a = k then
      if b = Memory.unlisted then rest else (a, b) :: rest
    else (k, c) :: Memory.put rest a b

/-- `MemRead(addr, 1)`: 0x00 at and above 4096, never fails (R26). -/
def Memory.read (m : Memory) (a : Nat) : Byte :=
  if a < Config.memSize then m.lookup a else 0x00#8

/-- `MemWrite(addr, 1, v)`: no effect at and above 4096, never fails (R27). -/
def Memory.write (m : Memory) (a : Nat) (b : Byte) : Memory :=
  if a < Config.memSize then m.put a b else m

/-- `LOAD(offset, bytes)` on memory: byte by byte from `offset` on, `offset + i` without wrap-around (R30). -/
def Memory.load (m : Memory) (offset : Nat) : List Byte → Memory
  | [] => m
  | b :: bs => Memory.load (m.write offset b) (offset + 1) bs

/-- One byte of the block's memory. -/
def State.readByte (s : State) (a : Nat) : Byte := s.mem.read a

/-- The state with one byte of memory written. -/
def State.writeByte (s : State) (a : Nat) (b : Byte) : State := { s with mem := s.mem.write a b }

/-! ## Registers and call stack -/

/-- `V[x]` (R7). No register is hard-wired (R9). -/
def State.reg (s : State) (x : RegIdx) : Byte := s.v.get x

/-- The state with `b` in `V[x]`. -/
def State.setReg (s : State) (x : RegIdx) (b : Byte) : State := { s with v := s.v.set x b }

/-- `stack[j]` (R14). -/
def State.stackAt (s : State) (j : Fin 16) : Word := s.stack.get j

/-- The state with `w` in `stack[j]`. -/
def State.setStack (s : State) (j : Fin 16) (w : Word) : State := { s with stack := s.stack.set j w }

/-! ## The writes of a step (R6) -/

/-- One write `<-` of an instruction's pseudocode. -/
inductive Write where
  /-- `V[x] <- b` -/
  | reg (x : RegIdx) (b : Byte)
  /-- `pc <- w` -/
  | pc (w : Word)
  /-- `stack[j] <- w` -/
  | stack (j : Fin 16) (w : Word)
  /-- `sp <- n` -/
  | sp (n : Fin 17)
  deriving DecidableEq, Repr

/-- One write applied. -/
def State.apply (s : State) : Write → State
  | .reg x b => s.setReg x b
  | .pc w => { s with pc := w }
  | .stack j w => s.setStack j w
  | .sp n => { s with sp := n }

/-- The writes of a step applied at its end in the listed order, so that the later of two writes of one element remains (R6). The
values written are computed by the meaning from the state before the step (log 5). -/
def State.commit (s : State) (ws : List Write) : State := ws.foldl State.apply s

/-- The pc `n` bytes past the executing instruction, modulo 2^16 (R12; log 6). -/
def State.pcPlus (s : State) (n : Nat) : Word := s.pc + BitVec.ofNat 16 n

/-! ## Instruction fetch (R50) -/

/-- The opcode a step fetches, the content of the instruction latch (R19): the bytes at `pc` and `(pc + 1) mod 2^16`, big-endian
(R31), at any alignment (R32; log 7). -/
def fetchOp (s : State) : Word :=
  wordOfBytes (s.readByte s.pc.toNat) (s.readByte (s.pcPlus 1).toNat)

/-- The state with a word stored where `fetchOp` reads the next instruction: high byte at `pc`, low byte at `(pc + 1) mod 2^16`. -/
def State.placeWord (s : State) (op : Word) : State :=
  (s.writeByte s.pc.toNat (hiByte op)).writeByte (s.pcPlus 1).toNat (loByte op)

/-! ## Raising an error (R77, R79) -/

/-- `raise <Error>`: the step ends with the named error, every write of the step is discarded, no state is saved and control goes
to no handler (R6, R77, R79). The block has no return from an error (R80); `hostStep` keeps the state before the step. -/
def raise (e : Fault) : Host.Outcome State Fault Refusal := .fault e

end Sys2Proof.Machine
end

