-- ==== Sys2Proof/Machine/Operands.lean ====
section
/-!
DEFINITION. Operand assembly (30_encoding.md R42) and the results of the arithmetic of 43_register_alu.md R60: 8-bit unsigned,
with wrap-around.
-/

namespace Sys2Proof.Machine

/-- `zext_16(nnn)`: the pc value of an address field (R42). -/
def targetOf (nnn : Addr) : Word := nnn.setWidth 16

/-- The exact sum of two bytes, 0 to 510 (R60). -/
def exactSum (a b : Byte) : Nat := a.toNat + b.toNat

/-- `(a + b) mod 256` (R60). -/
def addResult (a b : Byte) : Byte := BitVec.ofNat 8 (exactSum a b)

/-- `(a - b) mod 256` (R60). -/
def subResult (a b : Byte) : Byte := BitVec.ofInt 8 ((a.toNat : Int) - (b.toNat : Int))

/-- `a >> 1`, bit 7 filled with 0 (R60, R68). -/
def shiftRightResult (a : Byte) : Byte := a >>> 1

/-- `(a << 1) mod 256`, bit 0 filled with 0 (R60, R70). -/
def shiftLeftResult (a : Byte) : Byte := a <<< 1

end Sys2Proof.Machine
end

