-- ==== Sys2Proof/Machine/Flags.lean ====
section
/-!
DEFINITION. The flag values the five flag-defining instructions write into VF (43_register_alu.md R60, R61), and the shared form
of those instructions.
-/

namespace Sys2Proof.Machine

/-- A condition as the byte 1 or 0. -/
def flagByte (c : Bool) : Byte := if c then 0x01#8 else 0x00#8

/-- The carry of an addition: `sum > 255` (R60, R66). -/
def carryFlag (a b : Byte) : Byte := flagByte (exactSum a b > 255)

/-- The NOT-borrow of `a - b`: `a >= b`, so 1 on equality (R60, R67, R69). -/
def notBorrowFlag (a b : Byte) : Byte := flagByte (a.toNat ≥ b.toNat)

/-- The bit a right shift moves out: `a & 0x01` (R68). -/
def shiftedOutRight (a : Byte) : Byte := a &&& 0x01#8

/-- The bit a left shift moves out: `(a >> 7) & 0x01` (R70). -/
def shiftedOutLeft (a : Byte) : Byte := (a >>> 7) &&& 0x01#8

/-- The writes of a flag-defining instruction: the flag into VF, then the result into `V[x]`, then pc by 2; for `x = 15` the result
remains (R61; log 5). -/
def flaggedWrites (s : State) (x : RegIdx) (flag result : Byte) : List Write :=
  [.reg Config.flagReg flag, .reg x result, .pc (s.pcPlus 2)]

end Sys2Proof.Machine
end

