-- ==== Sys2Proof/Machine/Control.lean ====
section
/-!
DEFINITION. Control transfer: JUMP and CALL (40_control_transfer.md R52 to R54).
-/

namespace Sys2Proof.Machine

/-- JUMP (R52): `pc <- zext_16(nnn)`. -/
def execJump (nnn : Addr) (s : State) : Host.Outcome State Fault Refusal :=
  .next (s.commit [.pc (targetOf nnn)])

/-- CALL (R53): a full stack raises StackOverflow; otherwise the CALL's own address is pushed (log 4), `sp` is incremented and pc
is the target. -/
def execCall (nnn : Addr) (s : State) : Host.Outcome State Fault Refusal :=
  if h : s.sp.val < Config.stackDepth then
    .next (s.commit [.stack ⟨s.sp.val, h⟩ s.pc, .sp ⟨s.sp.val + 1, Nat.succ_lt_succ h⟩, .pc (targetOf nnn)])
  else raise .stackOverflow

end Sys2Proof.Machine
end

