-- ==== Sys2Proof/Machine/Immediate.lean ====
section
/-!
DEFINITION. Immediate loads and adds: LOAD_IMM, ADD_IMM (42_immediate.md R58, R59), and the shared form of an instruction that
writes one register and no flag.
-/

namespace Sys2Proof.Machine

/-- The writes of an instruction that defines no flag: the result into `V[x]`, then pc by 2. -/
def plainWrites (s : State) (x : RegIdx) (result : Byte) : List Write :=
  [.reg x result, .pc (s.pcPlus 2)]

/-- LOAD_IMM (R58): `V[x] <- kk`. -/
def execLoadImm (x : RegIdx) (kk : Byte) (s : State) : Host.Outcome State Fault Refusal :=
  .next (s.commit (plainWrites s x kk))

/-- ADD_IMM (R59): `V[x] <- (V[x] + kk) mod 256`, no flag. -/
def execAddImm (x : RegIdx) (kk : Byte) (s : State) : Host.Outcome State Fault Refusal :=
  .next (s.commit (plainWrites s x (addResult (s.reg x) kk)))

end Sys2Proof.Machine
end

