-- ==== Sys2Proof/Machine/RegisterAlu.lean ====
section
/-!
DEFINITION. The register-register operations 8xyN (43_register_alu.md R62 to R70).
-/

namespace Sys2Proof.Machine

/-- LOAD_REG (R62): `V[x] <- V[y]`. -/
def execLoadReg (x y : RegIdx) (s : State) : Host.Outcome State Fault Refusal :=
  .next (s.commit (plainWrites s x (s.reg y)))

/-- OR (R63): `V[x] <- V[x] | V[y]`, no flag. -/
def execOr (x y : RegIdx) (s : State) : Host.Outcome State Fault Refusal :=
  .next (s.commit (plainWrites s x (s.reg x ||| s.reg y)))

/-- AND (R64): `V[x] <- V[x] & V[y]`, no flag. -/
def execAnd (x y : RegIdx) (s : State) : Host.Outcome State Fault Refusal :=
  .next (s.commit (plainWrites s x (s.reg x &&& s.reg y)))

/-- XOR (R65): `V[x] <- V[x] ^ V[y]`, no flag. -/
def execXor (x y : RegIdx) (s : State) : Host.Outcome State Fault Refusal :=
  .next (s.commit (plainWrites s x (s.reg x ^^^ s.reg y)))

/-- ADD_REG (R66): VF is the carry, `V[x]` the sum modulo 256. -/
def execAddReg (x y : RegIdx) (s : State) : Host.Outcome State Fault Refusal :=
  let a := s.reg x
  let b := s.reg y
  .next (s.commit (flaggedWrites s x (carryFlag a b) (addResult a b)))

/-- SUB_REG (R67): VF is the NOT-borrow of `V[x] - V[y]`, `V[x]` the difference modulo 256. -/
def execSubReg (x y : RegIdx) (s : State) : Host.Outcome State Fault Refusal :=
  let a := s.reg x
  let b := s.reg y
  .next (s.commit (flaggedWrites s x (notBorrowFlag a b) (subResult a b)))

/-- SHIFT_RIGHT (R68): VF is the bit shifted out of `V[x]`; `V[y]` is not read (R45; log 14). -/
def execShiftRight (x _y : RegIdx) (s : State) : Host.Outcome State Fault Refusal :=
  let a := s.reg x
  .next (s.commit (flaggedWrites s x (shiftedOutRight a) (shiftRightResult a)))

/-- SUBN_REG (R69): VF is the NOT-borrow of `V[y] - V[x]`, `V[x]` the difference modulo 256. -/
def execSubnReg (x y : RegIdx) (s : State) : Host.Outcome State Fault Refusal :=
  let a := s.reg x
  let b := s.reg y
  .next (s.commit (flaggedWrites s x (notBorrowFlag b a) (subResult b a)))

/-- SHIFT_LEFT (R70): VF is the bit shifted out of `V[x]`; `V[y]` is not read (R45; log 14). -/
def execShiftLeft (x _y : RegIdx) (s : State) : Host.Outcome State Fault Refusal :=
  let a := s.reg x
  .next (s.commit (flaggedWrites s x (shiftedOutLeft a) (shiftLeftResult a)))

end Sys2Proof.Machine
end

