-- ==== Sys2Proof/Machine/Skip.lean ====
section
/-!
DEFINITION. The conditional skips: SKIP_EQ_IMM, SKIP_NEQ_IMM, SKIP_EQ_REG (41_conditional_skip.md R55 to R57).
-/

namespace Sys2Proof.Machine

/-- A skip: pc by 4 if the condition holds, else by 2. The skipped word is not fetched. -/
def skipIf (c : Bool) (s : State) : Host.Outcome State Fault Refusal :=
  .next (s.commit [.pc (if c then s.pcPlus 4 else s.pcPlus 2)])

/-- SKIP_EQ_IMM (R55). -/
def execSkipEqImm (x : RegIdx) (kk : Byte) (s : State) : Host.Outcome State Fault Refusal :=
  skipIf (s.reg x == kk) s

/-- SKIP_NEQ_IMM (R56). -/
def execSkipNeqImm (x : RegIdx) (kk : Byte) (s : State) : Host.Outcome State Fault Refusal :=
  skipIf (s.reg x != kk) s

/-- SKIP_EQ_REG (R57). -/
def execSkipEqReg (x y : RegIdx) (s : State) : Host.Outcome State Fault Refusal :=
  skipIf (s.reg x == s.reg y) s

end Sys2Proof.Machine
end

