-- ==== Sys2Proof/Machine/Step.lean ====
section
/-!
DEFINITION. The step (30_encoding.md R50): fetch, decode, execute one instruction; and the placing of an instruction where the next
step fetches it.
-/

namespace Sys2Proof.Machine

/-- `STEP` (R50): an unsupported word raises UnknownInstruction before anything executes (R78); otherwise the instruction's meaning
is the outcome. -/
def step (s : State) : Host.Outcome State Fault Refusal :=
  match decode (fetchOp s) with
  | some i => exec i s
  | none => raise (.unknownInstruction (fetchOp s))

/-- The state with the table word `w` (bits at and above `nbits` zero) stored at pc, high byte first: what a host's `MEM_WRITE` or
`LOAD` there does (R29, R30; log 12, log 13). -/
def State.withFetchWord (s : State) (nbits w : Nat) : State :=
  s.placeWord (BitVec.ofNat 16 (w % 2 ^ nbits))

end Sys2Proof.Machine
end

