-- ==== Sys2Proof/Machine/HostOps.lean ====
section
/-!
DEFINITION. The block's external interface: the host operations of 10_state.md R22, each one atomic transition of the whole state
(00_scope.md R2), the encoding of a step's result (60_exceptions.md R71, R72) and the boot sequence (70_reset_and_hazards.md R88).
-/

namespace Sys2Proof.Machine

/-- The encoded result of a STEP: a 2-bit code and a 16-bit payload (R72; log 10). -/
structure StepResult where
  code : BitVec 2
  payload : Word
  deriving DecidableEq, Repr

/-- R72: 0 is OK, 1 StackOverflow, 2 UnknownInstruction with the opcode as payload; 3, which the block never produces, stands for a
refusal of the model, which no instruction answers with. -/
def StepResult.ofOutcome : Host.Outcome State Fault Refusal → StepResult
  | .next _ => ⟨0, 0x0000#16⟩
  | .fault .stackOverflow => ⟨1, 0x0000#16⟩
  | .fault (.unknownInstruction op) => ⟨2, op⟩
  | .refused _ => ⟨3, 0x0000#16⟩

/-- The block's state after a step that began in `s` and ended in the outcome: a failed step changes nothing (R77). -/
def stateAfter (s : State) : Host.Outcome State Fault Refusal → State
  | .next t => t
  | .fault _ => s
  | .refused _ => s

/-- `STEP` as the host sees it: the state it leaves and its result (R71, R77). -/
def hostStep (s : State) : State × StepResult := (stateAfter s (step s), StepResult.ofOutcome (step s))

/-- `RESET`, from any state (R86). -/
def hostReset (_s : State) : State := State.reset

/-- `LOAD(offset, bytes)` (R30; log 19). -/
def hostLoad (offset : Nat) (bytes : List Byte) (s : State) : State := { s with mem := s.mem.load offset bytes }

/-- `MEM_READ(addr)` at any natural address (R29; log 8). -/
def hostMemRead (a : Nat) (s : State) : Byte := s.readByte a

/-- `MEM_WRITE(addr, v)` at any natural address (R29; log 8). -/
def hostMemWrite (a : Nat) (b : Byte) (s : State) : State := s.writeByte a b

/-- `GET_DT` (R18). -/
def hostGetDT (s : State) : Byte := s.dt

/-- `SET_DT` (R18; log 18). -/
def hostSetDT (b : Byte) (s : State) : State := { s with dt := b }

/-- `GET_ST` (R18). -/
def hostGetST (s : State) : Byte := s.st

/-- `SET_ST` (R18; log 18). -/
def hostSetST (b : Byte) (s : State) : State := { s with st := b }

/-- The host operations of R22; there is no other (log 9). -/
inductive HostOp where
  | step
  | reset
  | load (offset : Nat) (bytes : List Byte)
  | memRead (a : Nat)
  | memWrite (a : Nat) (b : Byte)
  | getDT
  | setDT (b : Byte)
  | getST
  | setST (b : Byte)
  deriving DecidableEq, Repr

/-- What an operation gives back to the host (R22). -/
inductive HostReply where
  | none
  | byte (b : Byte)
  | result (r : StepResult)
  deriving DecidableEq, Repr

/-- One host operation: the state after it and its result (R22). -/
def hostApply (o : HostOp) (s : State) : State × HostReply :=
  match o with
  | .step => ((hostStep s).1, .result (hostStep s).2)
  | .reset => (hostReset s, .none)
  | .load offset bytes => (hostLoad offset bytes s, .none)
  | .memRead a => (s, .byte (hostMemRead a s))
  | .memWrite a b => (hostMemWrite a b s, .none)
  | .getDT => (s, .byte (hostGetDT s))
  | .setDT b => (hostSetDT b s, .none)
  | .getST => (s, .byte (hostGetST s))
  | .setST b => (hostSetST b s, .none)

/-- Operations one after another, which never overlap (R23, R36): the last state and the replies in order. -/
def hostRun : List HostOp → State → State × List HostReply
  | [], s => (s, [])
  | o :: os, s =>
    let r := hostApply o s
    let rest := hostRun os r.1
    (rest.1, r.2 :: rest.2)

/-- The state a program starts from: RESET, then the image loaded at ENTRY (R88; log 12). -/
def boot (image : List Byte) (s : State) : State := hostLoad Config.entry.toNat image (hostReset s)

end Sys2Proof.Machine
end

