-- ==== Sys2Proof/Safety.lean ====
section
/-!
DEFINITION. What claims say: what an instruction leaves alone, which registers it reads and writes (10_state.md R9), the invariant of the states a block can be in from reset, the states a run reaches, and the
end of a run (70_reset_and_hazards.md R90).
-/

namespace Sys2Proof

/-- The registers an instruction reads, from the table of R9. -/
def Instr.reads : Instr → List RegIdx
  | .jump _ | .call _ | .loadImm _ _ => []
  | .skipEqImm x _ | .skipNeqImm x _ | .addImm x _ => [x]
  | .loadReg _ y => [y]
  | .shiftRight x _ | .shiftLeft x _ => [x]
  | .skipEqReg x y | .or x y | .and x y | .xor x y | .addReg x y | .subReg x y | .subnReg x y => [x, y]

/-- The registers an instruction writes, from the table of R9. -/
def Instr.writes : Instr → List RegIdx
  | .jump _ | .call _ | .skipEqImm _ _ | .skipNeqImm _ _ | .skipEqReg _ _ => []
  | .loadImm x _ | .addImm x _ | .loadReg x _ | .or x _ | .and x _ | .xor x _ => [x]
  | .addReg x _ | .subReg x _ | .shiftRight x _ | .subnReg x _ | .shiftLeft x _ => [Config.flagReg, x]

namespace Machine

/-! ## Frames -/

/-- `t` differs from `s` at most in pc and in the registers listed: every other register, the index register, the stack, the stack
pointer, both timers and every byte of memory are as in `s`. -/
def KeepsAllBut (rs : List RegIdx) (s t : State) : Prop :=
  (∀ r, r ∉ rs → t.reg r = s.reg r) ∧ t.i = s.i ∧ (∀ j, t.stackAt j = s.stackAt j) ∧ t.sp = s.sp ∧ t.dt = s.dt ∧
    t.st = s.st ∧ ∀ a : Nat, t.readByte a = s.readByte a

/-- `t`'s pc is `n` bytes past `s`'s, modulo 2^16 (R12). -/
def PcAdvances (n : Nat) (s t : State) : Prop := t.pc.toNat = (s.pc.toNat + n) % 2 ^ 16

/-- An outcome with a function applied to its next state. -/
def mapNext (f : State → State) : Host.Outcome State Fault Refusal → Host.Outcome State Fault Refusal
  | .next t => .next (f t)
  | .fault e => .fault e
  | .refused r => .refused r

/-! ## Runs -/

/-- Instructions executed one after another, stopping at the first that gives no next state. -/
def execAll : List Instr → State → Host.Outcome State Fault Refusal
  | [], s => .next s
  | i :: is, s =>
    match exec i s with
    | .next t => execAll is t
    | .fault e => .fault e
    | .refused r => .refused r

/-- What holds of every state the host operations reach from reset: memory is in its canonical form, pc is at most 0x1003 (R12), the
index register keeps its reset value (R10), and the entries at or above sp are zero (R16). -/
structure State.Inv (s : State) : Prop where
  mem_wf : s.mem.wf
  pc_le : s.pc.toNat ≤ 0x1003
  i_zero : s.i = 0x0000#16
  stack_zero : ∀ j : Fin 16, s.sp.val ≤ j.val → s.stackAt j = 0x0000#16

/-- `t` is reached from the launch state `s` by successful steps, with no other host operation between them (R90; log 20). -/
inductive Reaches (s : State) : State → Prop where
  | launch : Reaches s s
  | step {t u : State} (h : Reaches s t) (hs : Machine.step t = .next u) : Reaches s u

/-- The run from `s` ends in state `t` with error `e`: `t` is reached and its step returns `e`, which leaves `t` as it is (R77, R90). -/
def EndsWith (s t : State) (e : Fault) : Prop := Reaches s t ∧ Machine.step t = .fault e

/-- The run from `s` is a hang: every reached state has a next one (R90). -/
def Hangs (s : State) : Prop := ∀ t, Reaches s t → ∃ u, Machine.step t = .next u

end Machine

end Sys2Proof
end

