-- ==== Sys2Proof/Certificates/Slice0/Obligations.lean ====
section
/-!
DEFINITION. The statements for the provers, from the numbered rules of spec/. A docstring names the rules a statement formalises;
where a clause rests on a decision of the spec (92_eei_decisions.md) or on a choice of the model, the docstring says so.
-/

open Sys2Proof Sys2Proof.Machine

/-! ## Encoding -/

/-- Words written out from the patterns of R44 decode to the instructions they stand for. -/
def Obligations.SampleWordsDecode : Prop :=
  decode 0b0001001000110100#16 = some (.jump 0x234#12) ∧
  decode 0b0010001100000000#16 = some (.call 0x300#12) ∧
  decode 0b0011001000010000#16 = some (.skipEqImm 2 0x10#8) ∧
  decode 0b0101001101000000#16 = some (.skipEqReg 3 4) ∧
  decode 0b0110101000101111#16 = some (.loadImm 10 0x2F#8) ∧
  decode 0b1000000000010100#16 = some (.addReg 0 1) ∧
  decode 0b1000001000001110#16 = some (.shiftLeft 2 0) ∧
  decode 0b1000000000011111#16 = none

/-- Decoding the word, or the two bytes, of any instruction gives the instruction back, with every operand (R41, R43, R44). -/
def Obligations.DecodeOfEncodeIsTheInstruction : Prop :=
  ∀ (i : Instr) (rest : List Byte),
    decode (encode i) = some i ∧ decodeBytes (encodeBytes i ++ rest) = .ok (i, rest)

/-- A word that decodes to an instruction is that instruction's word: each word has one meaning and no bit is dropped (R44, R45). -/
def Obligations.EncodeOfDecodeIsTheWord : Prop :=
  ∀ (op : Word) (i : Instr), decode op = some i → encode i = op

/-- On every word the decoder and the opcode table agree: a supported word lies in the row of the instruction it decodes to and in no
other, an unsupported one in none (R44: the patterns are disjoint and decode is total). -/
def Obligations.DecodeAgreesWithOpcodeTable : Prop :=
  ∀ op : Word, rowsOf op = ((decode op).map Instr.mnemonic).toList

/-- The unsupported words are the classes of R46, 38400 of them, and a step that fetches one raises UnknownInstruction with that word,
whatever the state; no other step raises it (R74). -/
def Obligations.UnsupportedWordsRaiseUnknownInstruction : Prop :=
  (∀ op : Word, decode op = none ↔
    opF op = 0x0#4 ∨ 9 ≤ (opF op).toNat ∨ (opF op = 0x5#4 ∧ opN op ≠ 0x0#4) ∨
      (opF op = 0x8#4 ∧ opN op ∈ [0x8#4, 0x9#4, 0xA#4, 0xB#4, 0xC#4, 0xD#4, 0xF#4])) ∧
  (List.range 65536).countP (fun n => (decode (BitVec.ofNat 16 n)).isNone) = 38400 ∧
  ∀ (s : State) (op : Word),
    Machine.step s = .fault (.unknownInstruction op) ↔ fetchOp s = op ∧ decode op = none

/-- The lines of the spec's notation, format by format (R48): which written operands a name takes, in which order, within which range, and
the exact word the line encodes as; every other list of operands is refused. `SHIFT_RIGHT Vx` and `SHIFT_LEFT Vx` mean `y = 0`, and
`.word` is its 16-bit word. A line passes the whole check exactly when it has a word; the instruction it denotes has the line's name and
is what its word decodes to; every instruction has a line. The notation is the spec's decision D13; that a line is data and not text is
the model's DESIGN CHOICE (log 22). -/
def Obligations.WrittenLinesAssembleToTheirInstruction : Prop :=
  (∀ p ∈ [(Mnemonic.jump, 0x1000), (.call, 0x2000)], ∀ (operands : List AsmOperand) (w : Word),
    assemble (.ins p.1 operands) = some w ↔
      ∃ nnn, operands = [.num nnn] ∧ nnn < 4096 ∧ w.toNat = p.2 + nnn) ∧
  (∀ p ∈ [(Mnemonic.skipEqImm, 0x3000), (.skipNeqImm, 0x4000), (.loadImm, 0x6000), (.addImm, 0x7000)],
    ∀ (operands : List AsmOperand) (w : Word), assemble (.ins p.1 operands) = some w ↔
      ∃ x kk, operands = [.reg x, .num kk] ∧ x < 16 ∧ kk < 256 ∧ w.toNat = p.2 + 0x100 * x + kk) ∧
  (∀ p ∈ [(Mnemonic.skipEqReg, 0x5000), (.loadReg, 0x8000), (.or, 0x8001), (.and, 0x8002), (.xor, 0x8003), (.addReg, 0x8004),
      (.subReg, 0x8005), (.subnReg, 0x8007)],
    ∀ (operands : List AsmOperand) (w : Word), assemble (.ins p.1 operands) = some w ↔
      ∃ x y, operands = [.reg x, .reg y] ∧ x < 16 ∧ y < 16 ∧ w.toNat = p.2 + 0x100 * x + 0x10 * y) ∧
  (∀ p ∈ [(Mnemonic.shiftRight, 0x8006), (.shiftLeft, 0x800E)],
    ∀ (operands : List AsmOperand) (w : Word), assemble (.ins p.1 operands) = some w ↔
      (∃ x y, operands = [.reg x, .reg y] ∧ x < 16 ∧ y < 16 ∧ w.toNat = p.2 + 0x100 * x + 0x10 * y) ∨
      ∃ x, operands = [.reg x] ∧ x < 16 ∧ w.toNat = p.2 + 0x100 * x) ∧
  (∀ (n : Nat) (w : Word), assemble (.word n) = some w ↔ n < 65536 ∧ w.toNat = n) ∧
  (∀ l : AsmLine, l.wf = (assemble l).isSome) ∧
  (∀ (m : Mnemonic) (operands : List AsmOperand) (w : Word), assemble (.ins m operands) = some w →
    ∃ i : Instr, (AsmLine.ins m operands).instr? = some i ∧ decode w = some i ∧ i.mnemonic = m) ∧
  ∀ i : Instr, ∃ operands, (AsmLine.ins i.mnemonic operands).instr? = some i ∧
    assemble (.ins i.mnemonic operands) = some (encode i)

/-! ## Fetch and step -/

/-- The fetched word's high byte is the byte at pc and its low byte the byte at pc + 1 (R31). -/
def Obligations.FetchIsBigEndian : Prop :=
  ∀ s : State, hiByte (fetchOp s) = s.readByte s.pc.toNat ∧
    (s.pc.toNat < 0xFFFF → loByte (fetchOp s) = s.readByte (s.pc.toNat + 1))

/-- When the two bytes at pc decode to an instruction, the step is that instruction's meaning, and nothing is added around it (R50; the
second address modulo 2^16 is the spec's decision D5, log 6). -/
def Obligations.StepExecutesDecodedInstruction : Prop :=
  ∀ (s : State) (i : Instr),
    decodeBytes [s.readByte s.pc.toNat, s.readByte ((s.pc.toNat + 1) % 2 ^ 16)] = .ok (i, []) → Machine.step s = exec i s

/-- A word placed at pc is what the next step runs, where both its bytes lie in memory (the model's `withFetchWord`, log 12, log 13). -/
def Obligations.StepRunsPlacedWord : Prop :=
  ∀ (s : State) (w : Nat) (i : Instr), s.mem.wf → s.pc.toNat + 1 < 4096 → decodeTableWord 16 w = some i →
    Machine.step (s.withFetchWord 16 w) = exec i (s.withFetchWord 16 w)

/-- A byte the host writes is seen by the next fetch if it lies at pc or at the second fetch address, and changes no other fetch; nothing
happens between the write and the fetch (R93). That the second address is pc + 1 modulo 2^16 is R50's, by the spec's decision D5
(log 6). -/
def Obligations.HostWriteIsSeenByNextFetch : Prop :=
  ∀ (s : State) (a : Nat) (b : Byte), s.mem.wf → a < 4096 →
    hiByte (fetchOp (hostMemWrite a b s)) = (if a = s.pc.toNat then b else hiByte (fetchOp s)) ∧
    loByte (fetchOp (hostMemWrite a b s)) = (if a = (s.pc.toNat + 1) % 2 ^ 16 then b else loByte (fetchOp s))

/-- A read at or above 4096 gives 0x00 and a write there is dropped, without an error; a step whose pc lies there fetches a word of
family 0 and raises UnknownInstruction with it (R75, whose last sentence is the spec's own inference). -/
def Obligations.AccessBeyondMemoryIsNoError : Prop :=
  ∀ s : State,
    (∀ (a : Nat) (b : Byte), 4096 ≤ a → s.readByte a = 0x00#8 ∧ s.writeByte a b = s) ∧
    (4096 ≤ s.pc.toNat → opF (fetchOp s) = 0x0#4 ∧ Machine.step s = .fault (.unknownInstruction (fetchOp s)))

/-! ## Control transfer -/

/-- JUMP (R52): encoding, effect, completion and frame. -/
def Obligations.JumpSetsPcToTarget : Prop :=
  ∀ (nnn : Addr) (s : State),
    (∀ op, decode op = some (.jump nnn) ↔ opF op = 0x1#4 ∧ opNNN op = nnn) ∧
    ∃ t, exec (.jump nnn) s = .next t ∧ t.pc.toNat = nnn.toNat ∧ KeepsAllBut [] s t

/-- A JUMP to its own address leaves the state as it is, and the run hangs (R52, R90; a hang is the spec's decision D19, log 20). -/
def Obligations.JumpToItselfHangs : Prop :=
  ∀ (nnn : Addr) (s : State), decode (fetchOp s) = some (.jump nnn) → nnn.toNat = s.pc.toNat →
    Machine.step s = .next s ∧ Hangs s

/-- CALL with a free entry: pushes, increments sp and jumps (R53). That the pushed value is the CALL's own address is the spec's
decision D3 (log 4). -/
def Obligations.CallPushesItsAddressAndJumps : Prop :=
  ∀ (nnn : Addr) (s : State),
    (∀ op, decode op = some (.call nnn) ↔ opF op = 0x2#4 ∧ opNNN op = nnn) ∧
    ∀ h : s.sp.val < 16, ∃ t, exec (.call nnn) s = .next t ∧ t.stackAt ⟨s.sp.val, h⟩ = s.pc ∧
      (∀ j : Fin 16, j.val ≠ s.sp.val → t.stackAt j = s.stackAt j) ∧ t.sp.val = s.sp.val + 1 ∧ t.pc.toNat = nnn.toNat ∧
      (∀ r, t.reg r = s.reg r) ∧ t.i = s.i ∧ t.dt = s.dt ∧ t.st = s.st ∧ ∀ a : Nat, t.readByte a = s.readByte a

/-- StackOverflow is raised by a CALL with a full stack and by nothing else, it carries no value, and the pc of the block still holds
the address of the CALL (R73). That the result without a value has the payload 0x0000 is R72's, by the spec's decision D11 (log 10). -/
def Obligations.OnlyCallOnFullStackOverflows : Prop :=
  (∀ (i : Instr) (s : State), exec i s = .fault .stackOverflow ↔ (∃ nnn, i = .call nnn) ∧ s.sp.val = 16) ∧
  ∀ s : State, Machine.step s = .fault .stackOverflow → (hostStep s).1.pc = s.pc ∧ (hostStep s).2.payload = 0x0000#16

/-- CALLs to any targets succeed until the stack is full, leaving the entries below as they were, and one more overflows: from
`sp = 0`, sixteen nested CALLs succeed and a seventeenth fails (R53, R15). -/
def Obligations.CallsFillTheStackThenOverflow : Prop :=
  ∀ (targets : List Addr) (last : Addr) (s : State), targets.length + s.sp.val = 16 →
    (∃ t, execAll (targets.map .call) s = .next t ∧ t.sp.val = 16 ∧
      ∀ j : Fin 16, j.val < s.sp.val → t.stackAt j = s.stackAt j) ∧
    execAll (targets.map .call ++ [.call last]) s = .fault .stackOverflow

/-! ## Conditional skips -/

/-- SKIP_EQ_IMM (R55): encoding, effect, completion and frame. -/
def Obligations.SkipEqImmSkipsOnEqual : Prop :=
  ∀ (x : RegIdx) (kk : Byte) (s : State),
    (∀ op, decode op = some (.skipEqImm x kk) ↔ opF op = 0x3#4 ∧ opX op = x ∧ opKK op = kk) ∧
    ∃ t, exec (.skipEqImm x kk) s = .next t ∧ PcAdvances (if (s.reg x).toNat = kk.toNat then 4 else 2) s t ∧
      KeepsAllBut [] s t

/-- SKIP_NEQ_IMM (R56): encoding, effect, completion and frame. -/
def Obligations.SkipNeqImmSkipsOnDifferent : Prop :=
  ∀ (x : RegIdx) (kk : Byte) (s : State),
    (∀ op, decode op = some (.skipNeqImm x kk) ↔ opF op = 0x4#4 ∧ opX op = x ∧ opKK op = kk) ∧
    ∃ t, exec (.skipNeqImm x kk) s = .next t ∧ PcAdvances (if (s.reg x).toNat = kk.toNat then 2 else 4) s t ∧
      KeepsAllBut [] s t

/-- SKIP_EQ_REG (R57): encoding (any other sub-opcode raises UnknownInstruction), effect, completion and frame. -/
def Obligations.SkipEqRegSkipsOnEqual : Prop :=
  ∀ (x y : RegIdx) (s : State),
    (∀ op, decode op = some (.skipEqReg x y) ↔ opF op = 0x5#4 ∧ opX op = x ∧ opY op = y ∧ opN op = 0x0#4) ∧
    (opF (fetchOp s) = 0x5#4 → opN (fetchOp s) ≠ 0x0#4 → Machine.step s = .fault (.unknownInstruction (fetchOp s))) ∧
    ∃ t, exec (.skipEqReg x y) s = .next t ∧
      PcAdvances (if (s.reg x).toNat = (s.reg y).toNat then 4 else 2) s t ∧ KeepsAllBut [] s t

/-! ## Immediates -/

/-- LOAD_IMM (R58): encoding, effect, completion and frame. -/
def Obligations.LoadImmWritesTheByte : Prop :=
  ∀ (x : RegIdx) (kk : Byte) (s : State),
    (∀ op, decode op = some (.loadImm x kk) ↔ opF op = 0x6#4 ∧ opX op = x ∧ opKK op = kk) ∧
    ∃ t, exec (.loadImm x kk) s = .next t ∧ t.reg x = kk ∧ PcAdvances 2 s t ∧ KeepsAllBut [x] s t

/-- ADD_IMM (R59): encoding, effect, completion and frame; VF changes only as the destination. -/
def Obligations.AddImmWrapsWithoutFlag : Prop :=
  ∀ (x : RegIdx) (kk : Byte) (s : State),
    (∀ op, decode op = some (.addImm x kk) ↔ opF op = 0x7#4 ∧ opX op = x ∧ opKK op = kk) ∧
    ∃ t, exec (.addImm x kk) s = .next t ∧ (t.reg x).toNat = ((s.reg x).toNat + kk.toNat) % 256 ∧
      PcAdvances 2 s t ∧ KeepsAllBut [x] s t

/-! ## Register-register operations -/

/-- LOAD_REG (R62): encoding, effect, completion and frame. -/
def Obligations.LoadRegCopies : Prop :=
  ∀ (x y : RegIdx) (s : State),
    (∀ op, decode op = some (.loadReg x y) ↔ opF op = 0x8#4 ∧ opX op = x ∧ opY op = y ∧ opN op = 0x0#4) ∧
    ∃ t, exec (.loadReg x y) s = .next t ∧ t.reg x = s.reg y ∧ PcAdvances 2 s t ∧ KeepsAllBut [x] s t

/-- OR (R63): encoding, effect bit by bit, completion and frame; VF changes only as the destination. -/
def Obligations.OrIsBitwiseWithoutFlag : Prop :=
  ∀ (x y : RegIdx) (s : State),
    (∀ op, decode op = some (.or x y) ↔ opF op = 0x8#4 ∧ opX op = x ∧ opY op = y ∧ opN op = 0x1#4) ∧
    ∃ t, exec (.or x y) s = .next t ∧
      (∀ k, (t.reg x).getLsbD k = ((s.reg x).getLsbD k || (s.reg y).getLsbD k)) ∧ PcAdvances 2 s t ∧ KeepsAllBut [x] s t

/-- AND (R64): encoding, effect bit by bit, completion and frame; VF changes only as the destination. -/
def Obligations.AndIsBitwiseWithoutFlag : Prop :=
  ∀ (x y : RegIdx) (s : State),
    (∀ op, decode op = some (.and x y) ↔ opF op = 0x8#4 ∧ opX op = x ∧ opY op = y ∧ opN op = 0x2#4) ∧
    ∃ t, exec (.and x y) s = .next t ∧
      (∀ k, (t.reg x).getLsbD k = ((s.reg x).getLsbD k && (s.reg y).getLsbD k)) ∧ PcAdvances 2 s t ∧ KeepsAllBut [x] s t

/-- XOR (R65): encoding, effect bit by bit, completion and frame; VF changes only as the destination. -/
def Obligations.XorIsBitwiseWithoutFlag : Prop :=
  ∀ (x y : RegIdx) (s : State),
    (∀ op, decode op = some (.xor x y) ↔ opF op = 0x8#4 ∧ opX op = x ∧ opY op = y ∧ opN op = 0x3#4) ∧
    ∃ t, exec (.xor x y) s = .next t ∧
      (∀ k, (t.reg x).getLsbD k = ((s.reg x).getLsbD k ^^ (s.reg y).getLsbD k)) ∧ PcAdvances 2 s t ∧ KeepsAllBut [x] s t

/-- ADD_REG (R66): the sum modulo 256 in `V[x]`, the carry in VF; encoding, completion and frame. For `x = 15` the sum remains, and both
operands are the values before the step: the spec's decision D4 (log 5). -/
def Obligations.AddRegSumAndCarry : Prop :=
  ∀ (x y : RegIdx) (s : State),
    (∀ op, decode op = some (.addReg x y) ↔ opF op = 0x8#4 ∧ opX op = x ∧ opY op = y ∧ opN op = 0x4#4) ∧
    ∃ t, exec (.addReg x y) s = .next t ∧
      (t.reg x).toNat = ((s.reg x).toNat + (s.reg y).toNat) % 256 ∧
      (x ≠ 15 → (t.reg 15).toNat = if (s.reg x).toNat + (s.reg y).toNat > 255 then 1 else 0) ∧
      PcAdvances 2 s t ∧ KeepsAllBut [x, 15] s t

/-- SUB_REG (R67): the difference modulo 256 in `V[x]`, the NOT-borrow in VF, 1 on equality; encoding, completion and frame. For
`x = 15` the difference remains, and both operands are the values before the step: the spec's decision D4 (log 5). -/
def Obligations.SubRegDifferenceAndNotBorrow : Prop :=
  ∀ (x y : RegIdx) (s : State),
    (∀ op, decode op = some (.subReg x y) ↔ opF op = 0x8#4 ∧ opX op = x ∧ opY op = y ∧ opN op = 0x5#4) ∧
    ∃ t, exec (.subReg x y) s = .next t ∧
      (t.reg x).toNat = ((s.reg x).toNat + 256 - (s.reg y).toNat) % 256 ∧
      (x ≠ 15 → (t.reg 15).toNat = if (s.reg x).toNat ≥ (s.reg y).toNat then 1 else 0) ∧
      PcAdvances 2 s t ∧ KeepsAllBut [x, 15] s t

/-- SHIFT_RIGHT (R68): `V[x]` halved, the old bit 0 in VF, for any `y`; encoding, completion and frame. For `x = 15` the shifted value
remains: the spec's decision D4 (log 5). -/
def Obligations.ShiftRightHalvesAndKeepsBit0 : Prop :=
  ∀ (x y : RegIdx) (s : State),
    (∀ op, decode op = some (.shiftRight x y) ↔ opF op = 0x8#4 ∧ opX op = x ∧ opY op = y ∧ opN op = 0x6#4) ∧
    ∃ t, exec (.shiftRight x y) s = .next t ∧
      (t.reg x).toNat = (s.reg x).toNat / 2 ∧ (x ≠ 15 → (t.reg 15).toNat = (s.reg x).toNat % 2) ∧
      PcAdvances 2 s t ∧ KeepsAllBut [x, 15] s t

/-- SUBN_REG (R69): `V[y] - V[x]` modulo 256 in `V[x]`, the NOT-borrow in VF, 1 on equality; encoding, completion and frame. For
`x = 15` the difference remains, and both operands are the values before the step: the spec's decision D4 (log 5). -/
def Obligations.SubnRegReversedDifferenceAndNotBorrow : Prop :=
  ∀ (x y : RegIdx) (s : State),
    (∀ op, decode op = some (.subnReg x y) ↔ opF op = 0x8#4 ∧ opX op = x ∧ opY op = y ∧ opN op = 0x7#4) ∧
    ∃ t, exec (.subnReg x y) s = .next t ∧
      (t.reg x).toNat = ((s.reg y).toNat + 256 - (s.reg x).toNat) % 256 ∧
      (x ≠ 15 → (t.reg 15).toNat = if (s.reg y).toNat ≥ (s.reg x).toNat then 1 else 0) ∧
      PcAdvances 2 s t ∧ KeepsAllBut [x, 15] s t

/-- SHIFT_LEFT (R70): `V[x]` doubled modulo 256, the old bit 7 in VF, for any `y`; encoding, completion and frame. For `x = 15` the
shifted value remains: the spec's decision D4 (log 5). -/
def Obligations.ShiftLeftDoublesAndKeepsBit7 : Prop :=
  ∀ (x y : RegIdx) (s : State),
    (∀ op, decode op = some (.shiftLeft x y) ↔ opF op = 0x8#4 ∧ opX op = x ∧ opY op = y ∧ opN op = 0xE#4) ∧
    ∃ t, exec (.shiftLeft x y) s = .next t ∧
      (t.reg x).toNat = (2 * (s.reg x).toNat) % 256 ∧ (x ≠ 15 → (t.reg 15).toNat = (s.reg x).toNat / 128) ∧
      PcAdvances 2 s t ∧ KeepsAllBut [x, 15] s t

/-- The two shifts do not depend on `y` (R45, the spec's inference from the table's effect column): the words 8x06 to 8xF6 all run the
same shift of `V[x]`, and so do 8x0E to 8xFE. -/
def Obligations.ShiftsIgnoreTheirYField : Prop :=
  ∀ (x y : RegIdx) (s : State),
    decode (wordR 0x8#4 x y 0x6#4) = some (.shiftRight x y) ∧ exec (.shiftRight x y) s = exec (.shiftRight x 0) s ∧
    decode (wordR 0x8#4 x y 0xE#4) = some (.shiftLeft x y) ∧ exec (.shiftLeft x y) s = exec (.shiftLeft x 0) s

/-- A flag-defining instruction that does not name VF gives the same next state whatever VF held: it overwrites VF (R61, R92; the order
of the writes is the spec's decision D4, log 5). -/
def Obligations.FlagInstructionsClobberVF : Prop :=
  ∀ (x y : RegIdx) (s : State) (b : Byte), x ≠ 15 → y ≠ 15 →
    ∀ i ∈ [Instr.addReg x y, .subReg x y, .shiftRight x y, .subnReg x y, .shiftLeft x y],
      exec i (s.setReg 15 b) = exec i s

/-! ## The whole machine -/

/-- An instruction changes only the registers the table of R9 says it writes. -/
def Obligations.InstructionsWriteOnlyTheirRegisters : Prop :=
  ∀ (i : Instr) (s t : State) (r : RegIdx), exec i s = .next t → r ∉ i.writes → t.reg r = s.reg r

/-- An instruction depends only on the registers the table of R9 says it reads: another value in any other register gives the same
outcome, with that register's value kept unless the instruction writes it. -/
def Obligations.InstructionsReadOnlyTheirRegisters : Prop :=
  ∀ (i : Instr) (s : State) (r : RegIdx) (b : Byte), r ∉ i.reads →
    exec i (s.setReg r b) = mapNext (fun t => if r ∈ i.writes then t else t.setReg r b) (exec i s)

/-- No step reads or writes DT or ST, and the words of the timer instructions raise UnknownInstruction (R17). -/
def Obligations.StepsIgnoreTimers : Prop :=
  (∀ (s : State) (d e : Byte),
    Machine.step { s with dt := d, st := e } = mapNext (fun t => { t with dt := d, st := e }) (Machine.step s)) ∧
  (∀ s t : State, Machine.step s = .next t → t.dt = s.dt ∧ t.st = s.st) ∧
  ∀ (s : State) (x : RegIdx), ∀ kk ∈ [0x07#8, 0x15#8, 0x18#8], fetchOp s = wordI 0xF#4 x kk →
    Machine.step s = .fault (.unknownInstruction (wordI 0xF#4 x kk))

/-- No step reads or writes the index register (R10, the spec's inference from the table). -/
def Obligations.StepsIgnoreIndexRegister : Prop :=
  (∀ (s : State) (w : Word), Machine.step { s with i := w } = mapNext (fun t => { t with i := w }) (Machine.step s)) ∧
  ∀ s t : State, Machine.step s = .next t → t.i = s.i

/-- No step writes memory (R28, the spec's inference from the table). -/
def Obligations.StepsWriteNoMemory : Prop :=
  ∀ s t : State, Machine.step s = .next t → t.mem = s.mem ∧ ∀ a : Nat, t.readByte a = s.readByte a

/-- A step with a next state starts at a pc of at most 0x0FFF and ends at one of at most 0x1003, which is exactly 2 or 4 past the old one,
without wrapping, unless the step ran a JUMP or a CALL, and then it is that instruction's target (R12, the spec's inference). -/
def Obligations.PcAdvancesNeverWrap : Prop :=
  ∀ s t : State, Machine.step s = .next t → s.pc.toNat ≤ 0x0FFF ∧ t.pc.toNat ≤ 0x1003 ∧
    (t.pc.toNat = s.pc.toNat + 2 ∨ t.pc.toNat = s.pc.toNat + 4 ∨
      ∃ nnn, (decode (fetchOp s) = some (.jump nnn) ∨ decode (fetchOp s) = some (.call nnn)) ∧ t.pc.toNat = nnn.toNat)

/-- Only CALL changes the stack or sp, which never decreases: a step either leaves both, or ran a CALL and pushed one entry (R14, R15;
the step-by-step growth is the spec's inference). -/
def Obligations.OnlyCallMovesTheStack : Prop :=
  ∀ s t : State, Machine.step s = .next t →
    (t.sp = s.sp ∧ t.stack = s.stack) ∨
    ((∃ nnn, decode (fetchOp s) = some (.call nnn)) ∧ t.sp.val = s.sp.val + 1 ∧
      ∀ j : Fin 16, j.val ≠ s.sp.val → t.stackAt j = s.stackAt j)

/-- Every step ends in a next state, in StackOverflow, or in UnknownInstruction with the fetched word; the first error exactly for a
CALL with a full stack, the second exactly for an unsupported word, so never both; and the model refuses nothing (R71, R76, R78). -/
def Obligations.StepOutcomesAreExactlyThree : Prop :=
  ∀ s : State,
    (Machine.step s = .fault .stackOverflow ↔ (∃ nnn, decode (fetchOp s) = some (.call nnn)) ∧ s.sp.val = 16) ∧
    (Machine.step s = .fault (.unknownInstruction (fetchOp s)) ↔ decode (fetchOp s) = none) ∧
    (Machine.step s = .fault .stackOverflow ∨ Machine.step s = .fault (.unknownInstruction (fetchOp s)) ∨
      ∃ t, Machine.step s = .next t)

/-! ## Host operations -/

/-- A failed STEP changes no element of the state (R77). -/
def Obligations.FailedStepChangesNothing : Prop :=
  ∀ (s : State) (e : Fault), Machine.step s = .fault e → (hostApply .step s).1 = s

/-- After a failed STEP, a STEP again gives the same error with the same payload and the same state (R80, the spec's inference). -/
def Obligations.RestepGivesTheSameError : Prop :=
  ∀ (s : State) (e : Fault), Machine.step s = .fault e → hostStep (hostStep s).1 = hostStep s

/-- The encoded result of a STEP (R72; the numbers are the spec's decision D11, log 10). -/
def Obligations.StepResultEncoding : Prop :=
  ∀ s : State,
    ((hostStep s).2 = ⟨0, 0x0000#16⟩ ↔ ∃ t, Machine.step s = .next t) ∧
    ((hostStep s).2 = ⟨1, 0x0000#16⟩ ↔ Machine.step s = .fault .stackOverflow) ∧
    (∀ op, (hostStep s).2 = ⟨2, op⟩ ↔ Machine.step s = .fault (.unknownInstruction op)) ∧
    (hostStep s).2.code ≠ 3

/-- RESET, from any state, sets every element to its reset value, and twice is as once (R86). -/
def Obligations.ResetSetsEveryElement : Prop :=
  ∀ s : State,
    (∀ a : Nat, hostMemRead a (hostReset s) = 0x00#8) ∧ (∀ x, (hostReset s).reg x = 0x00#8) ∧
    (hostReset s).i = 0x0000#16 ∧ (∀ j, (hostReset s).stackAt j = 0x0000#16) ∧ (hostReset s).dt = 0x00#8 ∧
    (hostReset s).st = 0x00#8 ∧ (hostReset s).sp = 0 ∧ (hostReset s).pc = 0x0200#16 ∧
    hostReset (hostReset s) = hostReset s

/-- MEM_WRITE stores a byte inside memory, is ignored at and above 4096, changes no other byte and nothing outside memory (R27). -/
def Obligations.MemWriteStoresOneByte : Prop :=
  ∀ (s : State) (a : Nat) (b : Byte), s.mem.wf →
    (a < 4096 → hostMemRead a (hostMemWrite a b s) = b) ∧
    (∀ c, c ≠ a → hostMemRead c (hostMemWrite a b s) = hostMemRead c s) ∧
    (4096 ≤ a → hostMemWrite a b s = s) ∧
    { hostMemWrite a b s with mem := s.mem } = s

/-- LOAD copies the bytes from `offset` on, drops those at and above 4096, and changes nothing else (R30; natural-number addresses and
no reset are the spec's decisions D12 and D21, log 8, log 19). -/
def Obligations.LoadCopiesTheImage : Prop :=
  ∀ (s : State) (offset : Nat) (bytes : List Byte), s.mem.wf →
    (∀ (k : Nat) (b : Byte), bytes[k]? = some b → offset + k < 4096 →
      hostMemRead (offset + k) (hostLoad offset bytes s) = b) ∧
    (∀ a : Nat, a < offset ∨ offset + bytes.length ≤ a → hostMemRead a (hostLoad offset bytes s) = hostMemRead a s) ∧
    { hostLoad offset bytes s with mem := s.mem } = s

/-- The timer accessors: a set is read back by the get of the same timer and changes nothing else, and a get changes nothing (R18; that
nothing else changes the timers between steps is the spec's decision D18, log 18). -/
def Obligations.TimerAccessorsSetAndGet : Prop :=
  ∀ (s : State) (b : Byte),
    hostGetDT (hostSetDT b s) = b ∧ { hostSetDT b s with dt := s.dt } = s ∧
    hostGetST (hostSetST b s) = b ∧ { hostSetST b s with st := s.st } = s ∧
    (hostApply .getDT s) = (s, .byte s.dt) ∧ (hostApply .getST s) = (s, .byte s.st)

/-- After the boot sequence pc is 0x0200, the image lies in memory from there on, every other byte is 0x00, and the first fetch reads
the image's first two bytes (R87, R88). -/
def Obligations.BootStartsAtTheImage : Prop :=
  ∀ (s : State) (hi lo : Byte) (rest : List Byte),
    (boot (hi :: lo :: rest) s).pc = 0x0200#16 ∧ fetchOp (boot (hi :: lo :: rest) s) = wordOfBytes hi lo ∧
    ∀ a : Nat, (boot (hi :: lo :: rest) s).readByte a =
      if 0x0200 ≤ a ∧ a < 4096 then (hi :: lo :: rest).getD (a - 0x0200) 0x00#8 else 0x00#8

/-! ## Invariants and runs -/

/-- The invariant of Safety.lean holds after reset. -/
def Obligations.ResetMeetsInvariant : Prop := State.reset.Inv

/-- Every step keeps the invariant: canonical memory, pc at most 0x1003 (R12), index register zero (R10), free stack entries zero (R16). -/
def Obligations.StepKeepsInvariant : Prop :=
  ∀ s t : State, s.Inv → Machine.step s = .next t → t.Inv

/-- Every host operation keeps the invariant, and so does every sequence of them from reset (R10, R12, R15, R16; that the host has no
other operation is the spec's decision D9, log 9). -/
def Obligations.HostOperationsKeepInvariant : Prop :=
  (∀ (o : HostOp) (s : State), s.Inv → (hostApply o s).1.Inv) ∧
  ∀ os : List HostOp, (hostRun os State.reset).1.Inv

/-- How a run of this machine goes and ends (R90): every reached state has the memory, the index register and the timers of the launch
state, an sp at least as high, and the stack entries below the launch state's sp; the run ends at a reached state exactly where the
fetched word is unsupported, with UnknownInstruction, or is a CALL with a full stack, with StackOverflow, and the failing STEP leaves that
state; it ends in at most one; and a run that ends nowhere is a hang. The definition of a run and its end is the spec's decisions D19 and
D20 (log 20). -/
def Obligations.RunsEndAtUnsupportedWordOrFullStackCall : Prop :=
  ∀ s : State,
    (∀ t, Reaches s t → t.mem = s.mem ∧ t.i = s.i ∧ t.dt = s.dt ∧ t.st = s.st ∧ s.sp.val ≤ t.sp.val ∧
      ∀ j : Fin 16, j.val < s.sp.val → t.stackAt j = s.stackAt j) ∧
    (∀ (t : State) (e : Fault), EndsWith s t e ↔ Reaches s t ∧
      ((e = .unknownInstruction (fetchOp t) ∧ decode (fetchOp t) = none) ∨
       (e = .stackOverflow ∧ (∃ nnn, decode (fetchOp t) = some (.call nnn)) ∧ t.sp.val = 16))) ∧
    (∀ (t : State) (e : Fault), EndsWith s t e → (hostStep t).1 = t) ∧
    (∀ (t u : State) (e f : Fault), EndsWith s t e → EndsWith s u f → t = u ∧ e = f) ∧
    (Hangs s ↔ ∀ (t : State) (e : Fault), ¬ EndsWith s t e)

/-- Two memories in canonical form that read the same at every address are the same data (the model's own form, log 1). -/
def Obligations.CanonicalMemoryIsUnique : Prop :=
  ∀ m n : Memory, m.wf → n.wf → (∀ a : Nat, m.read a = n.read a) → m = n

/-! ## The operations as the host calls them -/

/-- What each operation of R22 gives back and leaves: MEM_READ answers the byte at its own address, 0x00 at and above 4096, and changes
nothing (R29, R33); after a MEM_WRITE or a LOAD it answers the byte written at that address, and elsewhere the byte from before; the
timers' gets answer what was set; RESET answers nothing; STEP answers its result with the state it leaves (R71, R77). That the host calls
only these is the spec's decision D9 (log 9), natural-number addresses D12 (log 8), the timers D18 (log 18), LOAD without a reset D21
(log 19), and the numbers of the result D11 (log 10). -/
def Obligations.HostOperationsAnswerPerInterface : Prop :=
  ∀ s : State,
    (∀ a : Nat, hostApply (.memRead a) s = (s, .byte (s.readByte a))) ∧
    (∀ a : Nat, 4096 ≤ a → hostApply (.memRead a) s = (s, .byte 0x00#8)) ∧
    (s.mem.wf → ∀ (a c : Nat) (b : Byte), (hostRun [.memWrite a b, .memRead c] s).2 =
      [.none, .byte (if c = a ∧ a < 4096 then b else s.readByte c)]) ∧
    (s.mem.wf → ∀ (offset c : Nat) (bytes : List Byte), (hostRun [.load offset bytes, .memRead c] s).2 =
      [.none, .byte (if offset ≤ c ∧ c < 4096 then bytes.getD (c - offset) (s.readByte c) else s.readByte c)]) ∧
    (∀ b c : Byte, hostRun [.setDT b, .setST c, .getDT, .getST] s =
      ({ s with dt := b, st := c }, [.none, .none, .byte b, .byte c])) ∧
    hostApply .reset s = (State.reset, .none) ∧
    (∀ t, Machine.step s = .next t → hostApply .step s = (t, .result ⟨0, 0x0000#16⟩)) ∧
    (Machine.step s = .fault .stackOverflow → hostApply .step s = (s, .result ⟨1, 0x0000#16⟩)) ∧
    (∀ op, Machine.step s = .fault (.unknownInstruction op) → hostApply .step s = (s, .result ⟨2, op⟩))
end

