-- ==== Sys2Proof/Laws/Decode.lean ====
section
/-!
SUPPORT. The fields of the words the formats build, the words rebuilt from their fields, and the opcode table's masks as fields.
-/

namespace Sys2Proof

/-! ## Fields and concatenation -/

theorem extract_hi_append {u w : Nat} (a : BitVec u) (b : BitVec w) : (a ++ b).extractLsb' w u = a := by
  ext i hi
  simp [BitVec.getLsbD_append, hi]

theorem extract_lo_append {u w : Nat} (a : BitVec u) (b : BitVec w) : (a ++ b).extractLsb' 0 w = b := by
  ext i hi
  simp [BitVec.getLsbD_append, hi]

theorem append_extract (u w : Nat) (c : BitVec (u + w)) : c.extractLsb' w u ++ c.extractLsb' 0 w = c := by
  ext i hi
  rw [BitVec.getElem_append]
  split
  · simp [BitVec.getLsbD_eq_getElem, hi]
  · simp only [BitVec.getElem_extractLsb', BitVec.getLsbD_eq_getElem, hi, show w + (i - w) = i by omega]

theorem extract_extract {n : Nat} (c : BitVec n) (a b u w : Nat) (h : b + w ≤ u) :
    (c.extractLsb' a u).extractLsb' b w = c.extractLsb' (a + b) w := by
  ext i hi
  simp [show b + i < u by omega, Nat.add_assoc]

@[simp] theorem regField_toFin (x : RegIdx) : (regField x).toFin = x := rfl
@[simp] theorem regField_opX (op : Word) : regField (opX op) = op.extractLsb' 8 4 := rfl
@[simp] theorem regField_opY (op : Word) : regField (opY op) = op.extractLsb' 4 4 := rfl

/-! ## The fields of a built word -/

@[simp] theorem opF_wordA (f : Nibble) (nnn : Addr) : opF (wordA f nnn) = f := extract_hi_append f nnn
@[simp] theorem opNNN_wordA (f : Nibble) (nnn : Addr) : opNNN (wordA f nnn) = nnn := extract_lo_append f nnn

@[simp] theorem opF_wordI (f : Nibble) (x : RegIdx) (kk : Byte) : opF (wordI f x kk) = f := extract_hi_append f _

@[simp] theorem opX_wordI (f : Nibble) (x : RegIdx) (kk : Byte) : opX (wordI f x kk) = x := by
  have h := extract_extract (wordI f x kk) 0 8 12 4 (by omega)
  rw [show (wordI f x kk).extractLsb' 0 12 = (regField x ++ kk : BitVec 12) from extract_lo_append f _,
    extract_hi_append] at h
  exact congrArg BitVec.toFin h.symm

@[simp] theorem opKK_wordI (f : Nibble) (x : RegIdx) (kk : Byte) : opKK (wordI f x kk) = kk := by
  have h := extract_extract (wordI f x kk) 0 0 12 8 (by omega)
  rw [show (wordI f x kk).extractLsb' 0 12 = (regField x ++ kk : BitVec 12) from extract_lo_append f _,
    extract_lo_append] at h
  exact h.symm

@[simp] theorem opF_wordR (f : Nibble) (x y : RegIdx) (n : Nibble) : opF (wordR f x y n) = f := extract_hi_append f _

@[simp] theorem opX_wordR (f : Nibble) (x y : RegIdx) (n : Nibble) : opX (wordR f x y n) = x :=
  opX_wordI f x (regField y ++ n : BitVec 8)

theorem opKK_wordR (f : Nibble) (x y : RegIdx) (n : Nibble) : opKK (wordR f x y n) = (regField y ++ n : BitVec 8) :=
  opKK_wordI f x (regField y ++ n : BitVec 8)

@[simp] theorem opY_wordR (f : Nibble) (x y : RegIdx) (n : Nibble) : opY (wordR f x y n) = y := by
  have h := extract_extract (wordR f x y n) 0 4 8 4 (by omega)
  rw [show (wordR f x y n).extractLsb' 0 8 = (regField y ++ n : BitVec 8) from opKK_wordR f x y n,
    extract_hi_append] at h
  exact congrArg BitVec.toFin h.symm

@[simp] theorem opN_wordR (f : Nibble) (x y : RegIdx) (n : Nibble) : opN (wordR f x y n) = n := by
  have h := extract_extract (wordR f x y n) 0 0 8 4 (by omega)
  rw [show (wordR f x y n).extractLsb' 0 8 = (regField y ++ n : BitVec 8) from opKK_wordR f x y n,
    extract_lo_append] at h
  exact h.symm

/-! ## A word rebuilt from its fields -/

/-- A word is the format `A` word of its fields. -/
theorem wordA_fields (op : Word) : wordA (opF op) (opNNN op) = op := append_extract 4 12 op

theorem nnn_fields (op : Word) : (regField (opX op) ++ opKK op : BitVec 12) = opNNN op := by
  have h := append_extract 4 8 (opNNN op)
  rw [opNNN, extract_extract _ 0 8 12 4 (by omega), extract_extract _ 0 0 12 8 (by omega)] at h
  exact h

theorem kk_fields (op : Word) : (regField (opY op) ++ opN op : BitVec 8) = opKK op := by
  have h := append_extract 4 4 (opKK op)
  rw [opKK, extract_extract _ 0 4 8 4 (by omega), extract_extract _ 0 0 8 4 (by omega)] at h
  exact h

/-- A word is the format `I` word of its fields. -/
theorem wordI_fields (op : Word) : wordI (opF op) (opX op) (opKK op) = op := by
  rw [wordI, nnn_fields]; exact wordA_fields op

/-- A word is the format `R` word of its fields. -/
theorem wordR_fields (op : Word) : wordR (opF op) (opX op) (opY op) (opN op) = op := by
  rw [wordR, kk_fields]; exact wordI_fields op

/-! ## The number of a built word -/

theorem append_toNat {u w : Nat} (a : BitVec u) (b : BitVec w) : (a ++ b).toNat = 2 ^ w * a.toNat + b.toNat := by
  rw [BitVec.toNat_append, ← Nat.shiftLeft_add_eq_or_of_lt b.isLt, Nat.shiftLeft_eq, Nat.mul_comm]

theorem wordA_toNat (f : Nibble) (nnn : Addr) : (wordA f nnn).toNat = 0x1000 * f.toNat + nnn.toNat := append_toNat f nnn

theorem wordI_toNat (f : Nibble) (x : RegIdx) (kk : Byte) :
    (wordI f x kk).toNat = 0x1000 * f.toNat + 0x100 * x.val + kk.toNat := by
  have h : (wordI f x kk).toNat = 2 ^ 12 * f.toNat + (2 ^ 8 * x.val + kk.toNat) :=
    (append_toNat f (regField x ++ kk)).trans (congrArg (2 ^ 12 * f.toNat + ·) (append_toNat (regField x) kk))
  omega

theorem wordR_toNat (f : Nibble) (x y : RegIdx) (n : Nibble) :
    (wordR f x y n).toNat = 0x1000 * f.toNat + 0x100 * x.val + 0x10 * y.val + n.toNat := by
  have h : (wordR f x y n).toNat = 0x1000 * f.toNat + 0x100 * x.val + (2 ^ 4 * y.val + n.toNat) :=
    (wordI_toNat f x (regField y ++ n)).trans (congrArg (0x1000 * f.toNat + 0x100 * x.val + ·) (append_toNat (regField y) n))
  omega

/-! ## Written operands and lines -/

/-- A written operand is a register exactly if it is one of V0 to VF. -/
theorem AsmOperand.reg?_eq_some {o : AsmOperand} {x : RegIdx} : o.reg? = some x ↔ o = .reg x.val := by
  cases o with
  | num n => simp [AsmOperand.reg?]
  | reg n =>
    simp only [AsmOperand.reg?, Config.numRegs, AsmOperand.reg.injEq]
    split
    · simp [Fin.ext_iff]
    · simp only [reduceCtorEq, false_iff]; have := x.isLt; omega

/-- A written operand is a `w`-bit number exactly if it is a number that fits. -/
theorem AsmOperand.num?_eq_some {w : Nat} {o : AsmOperand} {b : BitVec w} : o.num? w = some b ↔ o = .num b.toNat := by
  cases o with
  | reg n => simp [AsmOperand.num?]
  | num n =>
    simp only [AsmOperand.num?, AsmOperand.num.injEq]
    split
    · rename_i h
      simp [← BitVec.toNat_inj, Nat.mod_eq_of_lt h]
    · simp only [reduceCtorEq, false_iff]; have := b.isLt; omega

/-- A line with an instruction name stands for the word of the instruction it denotes. -/
theorem assemble_ins (m : Mnemonic) (operands : List AsmOperand) :
    assemble (.ins m operands) = (AsmLine.ins m operands).instr?.map encode := rfl

/-! ## The two bytes of a word -/

@[simp] theorem wordOfBytes_hi_lo (op : Word) : wordOfBytes (hiByte op) (loByte op) = op := append_extract 8 8 op
@[simp] theorem hiByte_wordOfBytes (hi lo : Byte) : hiByte (wordOfBytes hi lo) = hi := extract_hi_append hi lo
@[simp] theorem loByte_wordOfBytes (hi lo : Byte) : loByte (wordOfBytes hi lo) = lo := extract_lo_append hi lo

/-- What `decodeBytes` answers on two bytes or more. -/
theorem decodeBytes_cons (hi lo : Byte) (rest : List Byte) :
    decodeBytes (hi :: lo :: rest) =
      match decode (wordOfBytes hi lo) with
      | some i => .ok (i, rest)
      | none => .error (.unsupported (wordOfBytes hi lo)) := rfl

/-! ## The masks of the opcode table -/

theorem append_and_append {u w : Nat} (a c : BitVec u) (b d : BitVec w) : (a ++ b) &&& (c ++ d) = (a &&& c) ++ (b &&& d) := by
  ext i hi
  simp only [BitVec.getElem_and, BitVec.getElem_append]
  split <;> simp

/-- The mask of formats `A` and `I` keeps the family field. -/
theorem and_mask_family (op : Word) : op &&& 0xF000#16 = wordA (opF op) 0x000#12 := by
  conv => lhs; rw [← wordA_fields op, show (0xF000#16 : Word) = wordA 0xF#4 0x000#12 by decide]
  unfold wordA
  rw [append_and_append, BitVec.and_zero, show (0xF#4 : Nibble) = BitVec.allOnes 4 by decide, BitVec.and_allOnes]

/-- The mask of format `R` keeps the family field and the sub-opcode. -/
theorem and_mask_sub (op : Word) : op &&& 0xF00F#16 = wordR (opF op) 0 0 (opN op) := by
  conv => lhs; rw [← wordR_fields op, show (0xF00F#16 : Word) = wordR 0xF#4 0 0 0xF#4 by decide]
  unfold wordR
  rw [append_and_append, append_and_append, append_and_append, show (0xF#4 : Nibble) = BitVec.allOnes 4 by decide,
    BitVec.and_allOnes, BitVec.and_allOnes, show regField 0 = 0#4 from rfl, BitVec.and_zero, BitVec.and_zero]

theorem wordA_inj {f g : Nibble} {a b : Addr} : wordA f a = wordA g b ↔ f = g ∧ a = b :=
  ⟨fun h => ⟨by simpa using congrArg opF h, by simpa using congrArg opNNN h⟩, by rintro ⟨rfl, rfl⟩; rfl⟩

theorem wordR_inj {f g : Nibble} {x y u v : RegIdx} {n m : Nibble} :
    wordR f x y n = wordR g u v m ↔ f = g ∧ x = u ∧ y = v ∧ n = m :=
  ⟨fun h => ⟨by simpa using congrArg opF h, by simpa using congrArg opX h, by simpa using congrArg opY h,
    by simpa using congrArg opN h⟩, by rintro ⟨rfl, rfl, rfl, rfl⟩; rfl⟩

end Sys2Proof
end

