-- ==== Sys2Proof/Laws/State.lean ====
section
/-!
SUPPORT. The small lemmas of State: each field after each update.
-/

namespace Sys2Proof.Machine

variable (s : State)

/-! ## setReg -/

theorem State.reg_setReg (x y : RegIdx) (b : Byte) : (s.setReg x b).reg y = if y = x then b else s.reg y := by
  simp only [State.reg, State.setReg, Vector.get_eq_getElem, Vector.getElem_set, Fin.val_inj, eq_comm]

@[simp] theorem State.reg_setReg_self (x : RegIdx) (b : Byte) : (s.setReg x b).reg x = b := by
  simp [State.reg_setReg]

@[simp] theorem State.reg_setReg_ne {x y : RegIdx} (h : y ≠ x) (b : Byte) : (s.setReg x b).reg y = s.reg y := by
  simp [State.reg_setReg, h]

@[simp] theorem State.setReg_i (x : RegIdx) (b : Byte) : (s.setReg x b).i = s.i := rfl
@[simp] theorem State.setReg_pc (x : RegIdx) (b : Byte) : (s.setReg x b).pc = s.pc := rfl
@[simp] theorem State.setReg_stack (x : RegIdx) (b : Byte) : (s.setReg x b).stack = s.stack := rfl
@[simp] theorem State.setReg_sp (x : RegIdx) (b : Byte) : (s.setReg x b).sp = s.sp := rfl
@[simp] theorem State.setReg_dt (x : RegIdx) (b : Byte) : (s.setReg x b).dt = s.dt := rfl
@[simp] theorem State.setReg_st (x : RegIdx) (b : Byte) : (s.setReg x b).st = s.st := rfl
@[simp] theorem State.setReg_mem (x : RegIdx) (b : Byte) : (s.setReg x b).mem = s.mem := rfl

/-! ## setStack -/

theorem State.stackAt_setStack (j k : Fin 16) (w : Word) :
    (s.setStack j w).stackAt k = if k = j then w else s.stackAt k := by
  simp only [State.stackAt, State.setStack, Vector.get_eq_getElem, Vector.getElem_set, Fin.val_inj, eq_comm]

@[simp] theorem State.stackAt_setStack_self (j : Fin 16) (w : Word) : (s.setStack j w).stackAt j = w := by
  simp [State.stackAt_setStack]

@[simp] theorem State.stackAt_setStack_ne {j k : Fin 16} (h : k ≠ j) (w : Word) :
    (s.setStack j w).stackAt k = s.stackAt k := by
  simp [State.stackAt_setStack, h]

@[simp] theorem State.setStack_v (j : Fin 16) (w : Word) : (s.setStack j w).v = s.v := rfl
@[simp] theorem State.setStack_i (j : Fin 16) (w : Word) : (s.setStack j w).i = s.i := rfl
@[simp] theorem State.setStack_pc (j : Fin 16) (w : Word) : (s.setStack j w).pc = s.pc := rfl
@[simp] theorem State.setStack_sp (j : Fin 16) (w : Word) : (s.setStack j w).sp = s.sp := rfl
@[simp] theorem State.setStack_dt (j : Fin 16) (w : Word) : (s.setStack j w).dt = s.dt := rfl
@[simp] theorem State.setStack_st (j : Fin 16) (w : Word) : (s.setStack j w).st = s.st := rfl
@[simp] theorem State.setStack_mem (j : Fin 16) (w : Word) : (s.setStack j w).mem = s.mem := rfl

/-! ## writeByte -/

@[simp] theorem State.writeByte_v (a : Nat) (b : Byte) : (s.writeByte a b).v = s.v := rfl
@[simp] theorem State.writeByte_i (a : Nat) (b : Byte) : (s.writeByte a b).i = s.i := rfl
@[simp] theorem State.writeByte_pc (a : Nat) (b : Byte) : (s.writeByte a b).pc = s.pc := rfl
@[simp] theorem State.writeByte_stack (a : Nat) (b : Byte) : (s.writeByte a b).stack = s.stack := rfl
@[simp] theorem State.writeByte_sp (a : Nat) (b : Byte) : (s.writeByte a b).sp = s.sp := rfl
@[simp] theorem State.writeByte_dt (a : Nat) (b : Byte) : (s.writeByte a b).dt = s.dt := rfl
@[simp] theorem State.writeByte_st (a : Nat) (b : Byte) : (s.writeByte a b).st = s.st := rfl
@[simp] theorem State.writeByte_mem (a : Nat) (b : Byte) : (s.writeByte a b).mem = s.mem.write a b := rfl

/-! ## One write applied -/

@[simp] theorem State.apply_reg (x : RegIdx) (b : Byte) : s.apply (.reg x b) = s.setReg x b := rfl
@[simp] theorem State.apply_pc (w : Word) : s.apply (.pc w) = { s with pc := w } := rfl
@[simp] theorem State.apply_stack (j : Fin 16) (w : Word) : s.apply (.stack j w) = s.setStack j w := rfl
@[simp] theorem State.apply_sp (n : Fin 17) : s.apply (.sp n) = { s with sp := n } := rfl

@[simp] theorem State.apply_mem (w : Write) : (s.apply w).mem = s.mem := by cases w <;> rfl
@[simp] theorem State.apply_i (w : Write) : (s.apply w).i = s.i := by cases w <;> rfl
@[simp] theorem State.apply_dt (w : Write) : (s.apply w).dt = s.dt := by cases w <;> rfl
@[simp] theorem State.apply_st (w : Write) : (s.apply w).st = s.st := by cases w <;> rfl

/-! ## The writes of a step committed -/

@[simp] theorem State.commit_nil : s.commit [] = s := rfl
@[simp] theorem State.commit_cons (w : Write) (ws : List Write) : s.commit (w :: ws) = (s.apply w).commit ws := rfl

/-- No write of a step reaches memory, the index register or a timer. -/
theorem State.commit_untouched (ws : List Write) :
    (s.commit ws).mem = s.mem ∧ (s.commit ws).i = s.i ∧ (s.commit ws).dt = s.dt ∧ (s.commit ws).st = s.st := by
  induction ws generalizing s with
  | nil => simp
  | cons w ws ih => simpa using ih (s.apply w)

@[simp] theorem State.readByte_pc (w : Word) (a : Nat) : ({ s with pc := w } : State).readByte a = s.readByte a := rfl
@[simp] theorem State.reg_pc (w : Word) (x : RegIdx) : ({ s with pc := w } : State).reg x = s.reg x := rfl
@[simp] theorem State.reg_sp (n : Fin 17) (x : RegIdx) : ({ s with sp := n } : State).reg x = s.reg x := rfl
@[simp] theorem State.reg_setStack (j : Fin 16) (w : Word) (x : RegIdx) : (s.setStack j w).reg x = s.reg x := rfl
@[simp] theorem State.reg_writeByte (a : Nat) (b : Byte) (x : RegIdx) : (s.writeByte a b).reg x = s.reg x := rfl
@[simp] theorem State.stackAt_setReg (x : RegIdx) (b : Byte) (j : Fin 16) : (s.setReg x b).stackAt j = s.stackAt j := rfl
@[simp] theorem State.stackAt_pc (w : Word) (j : Fin 16) : ({ s with pc := w } : State).stackAt j = s.stackAt j := rfl
@[simp] theorem State.stackAt_sp (n : Fin 17) (j : Fin 16) : ({ s with sp := n } : State).stackAt j = s.stackAt j := rfl

/-- Two states with the same registers, entries and other fields are equal. -/
theorem State.ext_of_reads {s t : State} (hv : ∀ x, t.reg x = s.reg x) (hi : t.i = s.i) (hpc : t.pc = s.pc)
    (hst : ∀ j, t.stackAt j = s.stackAt j) (hsp : t.sp = s.sp) (hdt : t.dt = s.dt) (hs : t.st = s.st)
    (hm : t.mem = s.mem) : t = s := by
  have h1 : t.v = s.v := Vector.ext fun k hk => by simpa [State.reg, Vector.get_eq_getElem] using hv ⟨k, hk⟩
  have h2 : t.stack = s.stack := Vector.ext fun k hk => by
    simpa [State.stackAt, Vector.get_eq_getElem] using hst ⟨k, hk⟩
  cases s; cases t; simp_all

/-! ## The state after reset -/

@[simp] theorem State.reset_reg (x : RegIdx) : State.reset.reg x = 0x00#8 := by
  simp [State.reg, State.reset, Vector.get_eq_getElem]

@[simp] theorem State.reset_stackAt (j : Fin 16) : State.reset.stackAt j = 0x0000#16 := by
  simp [State.stackAt, State.reset, Vector.get_eq_getElem]

@[simp] theorem State.reset_readByte (a : Nat) : State.reset.readByte a = 0x00#8 := by
  simp [State.readByte, State.reset, Memory.read, Memory.lookup]

end Sys2Proof.Machine
end

