-- ==== Sys2Proof/Laws/Memory.lean ====
section
/-!
SUPPORT. What the memory operations do: `put` and `lookup` on canonical lists, and that every memory operation keeps the canonical
form.
-/

namespace Sys2Proof.Machine

@[simp] theorem Memory.wf_nil : Memory.wf [] := ⟨List.Pairwise.nil, by simp⟩

theorem Memory.wf_cons {c : Host.Cell} {m : Memory} :
    Memory.wf (c :: m) ↔ (∀ d ∈ m, c.1 < d.1) ∧ c.1 < Config.memSize ∧ c.2 ≠ Memory.unlisted ∧ m.wf := by
  simp only [Memory.wf, List.pairwise_cons, List.forall_mem_cons]
  tauto

/-- An address below every listed one is unlisted. -/
theorem Memory.lookup_of_lt {m : Memory} {a : Nat} (h : ∀ c ∈ m, a < c.1) : m.lookup a = Memory.unlisted := by
  induction m with
  | nil => rfl
  | cons c m ih =>
    have hc := h c (by simp)
    simp only [Memory.lookup, Nat.ne_of_gt hc, if_false]
    exact ih fun d hd => h d (by simp [hd])

theorem Memory.mem_put {m : Memory} {a : Nat} {b : Byte} {c : Host.Cell} (h : c ∈ m.put a b) : c = (a, b) ∨ c ∈ m := by
  induction m with
  | nil => simp only [Memory.put] at h; split at h <;> simp_all
  | cons d m ih =>
    obtain ⟨k, e⟩ := d
    simp only [Memory.put] at h
    split at h
    · split at h <;> simp_all
    · split at h
      · split at h
        · exact .inr (by simp [h])
        · simp only [List.mem_cons] at h ⊢; tauto
      · simp only [List.mem_cons] at h ⊢
        rcases h with h | h
        · exact .inr (.inl h)
        · rcases ih h with h | h
          · exact .inl h
          · exact .inr (.inr h)

/-- `put` keeps the canonical form. -/
theorem Memory.put_wf {m : Memory} {a : Nat} {b : Byte} (hm : m.wf) (ha : a < Config.memSize) : (m.put a b).wf := by
  induction m with
  | nil =>
    simp only [Memory.put]
    split
    · exact Memory.wf_nil
    · exact Memory.wf_cons.2 ⟨(fun _ h => nomatch h), ha, by assumption, Memory.wf_nil⟩
  | cons d m ih =>
    obtain ⟨k, e⟩ := d
    obtain ⟨hlt, hk, he, hm'⟩ := Memory.wf_cons.1 hm
    simp only [Memory.put]
    split
    · split
      · exact hm
      · refine Memory.wf_cons.2 ⟨fun d hd => ?_, ha, by assumption, hm⟩
        rcases List.mem_cons.1 hd with rfl | hd
        · assumption
        · exact Nat.lt_trans ‹a < k› (hlt d hd)
    · split
      · subst a
        split
        · exact hm'
        · exact Memory.wf_cons.2 ⟨hlt, hk, by assumption, hm'⟩
      · refine Memory.wf_cons.2 ⟨fun d hd => ?_, hk, he, ih hm'⟩
        rcases Memory.mem_put hd with rfl | hd
        · show k < a; omega
        · exact hlt d hd

/-- `put` followed by `lookup`, on a canonical list. -/
theorem Memory.lookup_put {m : Memory} (hm : m.wf) (a c : Nat) (b : Byte) :
    (m.put a b).lookup c = if c = a then b else m.lookup c := by
  induction m with
  | nil =>
    by_cases hb : b = Memory.unlisted <;> by_cases hc : c = a <;>
      simp [Memory.put, Memory.lookup, hb, hc, eq_comm (a := a)]
  | cons d m ih =>
    obtain ⟨k, e⟩ := d
    obtain ⟨hlt, -, -, hm'⟩ := Memory.wf_cons.1 hm
    simp only [Memory.put]
    by_cases h1 : a < k
    · have hu : Memory.lookup ((k, e) :: m) a = Memory.unlisted := Memory.lookup_of_lt fun d hd => by
        rcases List.mem_cons.1 hd with rfl | hd
        · exact h1
        · exact Nat.lt_trans h1 (hlt d hd)
      by_cases hb : b = Memory.unlisted <;> by_cases hc : c = a
      · subst hc; simp only [h1, hb, if_true]; exact hu
      · simp [h1, hb, hc]
      · simp [h1, hb, hc, Memory.lookup]
      · simp only [h1, hb, hc, if_true, if_false]
        rw [Memory.lookup.eq_def ((a, b) :: _)]
        simp [Ne.symm hc]
    · by_cases h2 : a = k
      · subst h2
        have hu := Memory.lookup_of_lt hlt
        by_cases hb : b = Memory.unlisted <;> by_cases hc : c = a
        · subst hc; simpa [hb] using hu
        · simp [hb, hc, Memory.lookup, Ne.symm hc]
        · simp [hb, hc, Memory.lookup]
        · simp [hb, hc, Memory.lookup, Ne.symm hc]
      · have := ih hm'
        by_cases hc : k = c
        · subst hc; simp [h1, h2, Memory.lookup, Ne.symm h2]
        · simpa [h1, h2, Memory.lookup, hc] using this

/-- `Memory.write` keeps the canonical form. -/
theorem Memory.write_wf {m : Memory} (hm : m.wf) (a : Nat) (b : Byte) : (m.write a b).wf := by
  unfold Memory.write
  split
  · exact Memory.put_wf hm ‹_›
  · exact hm

/-- Everything `Memory.write` does to what is read, on a canonical list. -/
theorem Memory.read_write {m : Memory} (hm : m.wf) (a c : Nat) (b : Byte) :
    (m.write a b).read c = if c = a ∧ a < Config.memSize then b else m.read c := by
  unfold Memory.read Memory.write
  by_cases ha : a < Config.memSize
  · by_cases hc : c < Config.memSize
    · simp only [ha, hc, if_true, and_true]; exact Memory.lookup_put hm a c b
    · have : c ≠ a := by rintro rfl; exact hc ha
      simp [hc, this]
  · simp [ha]

/-- `Memory.load` keeps the canonical form. -/
theorem Memory.load_wf {m : Memory} (hm : m.wf) (offset : Nat) (bytes : List Byte) : (m.load offset bytes).wf := by
  induction bytes generalizing m offset with
  | nil => exact hm
  | cons b bs ih => exact ih (Memory.write_wf hm offset b) (offset + 1)

theorem State.reset_mem_wf : State.reset.mem.wf := Memory.wf_nil

/-- A read at or above the end of memory gives 0x00. -/
@[simp] theorem Memory.read_of_ge (m : Memory) {a : Nat} (h : Config.memSize ≤ a) : m.read a = 0x00#8 := by
  unfold Memory.read; rw [if_neg (Nat.not_lt.2 h)]

end Sys2Proof.Machine
end

