-- ==== Sys2Proof/Laws/PerInstr.lean ====
section
/-!
SUPPORT. Facts proved constructor by constructor: each instruction's word lies in exactly its own row of the opcode table.
-/

namespace Sys2Proof.Laws

/-- The rows of a word, from its family field and sub-opcode. -/
theorem rowsOf_fields (op : Word) :
    rowsOf op = (opcodeTable.filter fun r =>
      if r.m.format = .R then opF op == opF r.bits && opN op == opN r.bits else opF op == opF r.bits).map (·.m) := by
  have hA (c : Word) (hc : c = wordA (opF c) 0) : (op &&& 0xF000#16 == c) = (opF op == opF c) := by
    rw [and_mask_family, Bool.eq_iff_iff, beq_iff_eq, beq_iff_eq]
    conv => lhs; rw [hc]
    simp [wordA_inj]
  have hR (c : Word) (hc : c = wordR (opF c) 0 0 (opN c)) :
      (op &&& 0xF00F#16 == c) = (opF op == opF c && opN op == opN c) := by
    rw [and_mask_sub, Bool.eq_iff_iff, Bool.and_eq_true, beq_iff_eq, beq_iff_eq, beq_iff_eq]
    conv => lhs; rw [hc]
    simp [wordR_inj]
  unfold rowsOf
  congr 1
  refine List.filter_congr fun r hr => ?_
  simp only [opcodeTable, List.mem_cons, List.not_mem_nil, or_false] at hr
  rcases hr with rfl | rfl | rfl | rfl | rfl | rfl | rfl | rfl | rfl | rfl | rfl | rfl | rfl | rfl | rfl | rfl
  all_goals first
    | exact hA _ (by decide)
    | exact hR _ (by decide)

namespace EncodesInRow

/-- The word of the instruction lies in its own row of the opcode table and in no other. -/
def Statement (i : Instr) : Prop := rowsOf (encode i) = [i.mnemonic]

theorem jump (nnn : Addr) : Statement (.jump nnn) := by
  rw [Statement, rowsOf_fields, encode, opF_wordA]; rfl

theorem call (nnn : Addr) : Statement (.call nnn) := by
  rw [Statement, rowsOf_fields, encode, opF_wordA]; rfl

theorem skipEqImm (x : RegIdx) (kk : Byte) : Statement (.skipEqImm x kk) := by
  rw [Statement, rowsOf_fields, encode, opF_wordI]; rfl

theorem skipNeqImm (x : RegIdx) (kk : Byte) : Statement (.skipNeqImm x kk) := by
  rw [Statement, rowsOf_fields, encode, opF_wordI]; rfl

theorem loadImm (x : RegIdx) (kk : Byte) : Statement (.loadImm x kk) := by
  rw [Statement, rowsOf_fields, encode, opF_wordI]; rfl

theorem addImm (x : RegIdx) (kk : Byte) : Statement (.addImm x kk) := by
  rw [Statement, rowsOf_fields, encode, opF_wordI]; rfl

theorem skipEqReg (x y : RegIdx) : Statement (.skipEqReg x y) := by
  rw [Statement, rowsOf_fields, encode, opF_wordR, opN_wordR]; rfl

theorem loadReg (x y : RegIdx) : Statement (.loadReg x y) := by
  rw [Statement, rowsOf_fields, encode, opF_wordR, opN_wordR]; rfl

theorem or (x y : RegIdx) : Statement (.or x y) := by
  rw [Statement, rowsOf_fields, encode, opF_wordR, opN_wordR]; rfl

theorem and (x y : RegIdx) : Statement (.and x y) := by
  rw [Statement, rowsOf_fields, encode, opF_wordR, opN_wordR]; rfl

theorem xor (x y : RegIdx) : Statement (.xor x y) := by
  rw [Statement, rowsOf_fields, encode, opF_wordR, opN_wordR]; rfl

theorem addReg (x y : RegIdx) : Statement (.addReg x y) := by
  rw [Statement, rowsOf_fields, encode, opF_wordR, opN_wordR]; rfl

theorem subReg (x y : RegIdx) : Statement (.subReg x y) := by
  rw [Statement, rowsOf_fields, encode, opF_wordR, opN_wordR]; rfl

theorem shiftRight (x y : RegIdx) : Statement (.shiftRight x y) := by
  rw [Statement, rowsOf_fields, encode, opF_wordR, opN_wordR]; rfl

theorem subnReg (x y : RegIdx) : Statement (.subnReg x y) := by
  rw [Statement, rowsOf_fields, encode, opF_wordR, opN_wordR]; rfl

theorem shiftLeft (x y : RegIdx) : Statement (.shiftLeft x y) := by
  rw [Statement, rowsOf_fields, encode, opF_wordR, opN_wordR]; rfl

end EncodesInRow

end Sys2Proof.Laws
end

