-- ==== Sys2Proof/Laws/Step.lean ====
section
/-!
SUPPORT. One lemma per shared operation of the step: what the committed writes of each instruction shape leave, what a fetch reads,
and the inversion of the step.
-/

namespace Sys2Proof.Machine

variable (s : State)

/-! ## The shapes of the meanings -/

/-- Everything the writes of an instruction without a flag do. -/
theorem State.commit_plainWrites (x : RegIdx) (r : Byte) :
    s.commit (plainWrites s x r) = { s.setReg x r with pc := s.pcPlus 2 } := rfl

/-- Everything the writes of a flag-defining instruction do. -/
theorem State.commit_flaggedWrites (x : RegIdx) (f r : Byte) :
    s.commit (flaggedWrites s x f r) = { (s.setReg Config.flagReg f).setReg x r with pc := s.pcPlus 2 } := rfl

/-- The registers after a flag-defining instruction: the result in its destination, the flag in VF unless VF is the destination. -/
theorem State.reg_commit_flaggedWrites (x q : RegIdx) (f r : Byte) :
    (s.commit (flaggedWrites s x f r)).reg q = if q = x then r else if q = Config.flagReg then f else s.reg q := by
  rw [State.commit_flaggedWrites, State.reg_pc, State.reg_setReg, State.reg_setReg]

/-- The registers after an instruction without a flag. -/
theorem State.reg_commit_plainWrites (x q : RegIdx) (r : Byte) :
    (s.commit (plainWrites s x r)).reg q = if q = x then r else s.reg q := by
  rw [State.commit_plainWrites, State.reg_pc, State.reg_setReg]

/-- Everything a skip does. -/
theorem skipIf_eq (c : Bool) : skipIf c s = .next { s with pc := if c then s.pcPlus 4 else s.pcPlus 2 } := rfl

/-- Everything a JUMP does. -/
theorem execJump_eq (nnn : Addr) : execJump nnn s = .next { s with pc := targetOf nnn } := rfl

/-- Everything a CALL does while the stack has a free entry. -/
theorem execCall_of_lt (nnn : Addr) (h : s.sp.val < Config.stackDepth) :
    execCall nnn s =
      .next { s.setStack ⟨s.sp.val, h⟩ s.pc with sp := ⟨s.sp.val + 1, Nat.succ_lt_succ h⟩, pc := targetOf nnn } := by
  unfold execCall; rw [dif_pos h]; rfl

/-- Everything a CALL does when the stack is full. -/
theorem execCall_of_full (nnn : Addr) (h : s.sp.val = Config.stackDepth) : execCall nnn s = .fault .stackOverflow := by
  unfold execCall; rw [dif_neg (by omega)]; rfl

/-- A next state of an instruction is the state before it with a list of writes committed. -/
theorem exec_next_is_commit {i : Instr} {t : State} (h : exec i s = .next t) : ∃ ws, t = s.commit ws := by
  cases i <;> simp only [exec] at h
  case call nnn =>
    unfold execCall at h
    split at h
    · exact ⟨_, (Host.Outcome.next.inj h).symm⟩
    · cases h
  all_goals exact ⟨_, (Host.Outcome.next.inj h).symm⟩

/-! ## Operand assembly and arithmetic -/

theorem targetOf_toNat (nnn : Addr) : (targetOf nnn).toNat = nnn.toNat := by
  have := nnn.isLt
  simp only [targetOf, BitVec.toNat_setWidth]; omega

theorem targetOf_toNat_le (nnn : Addr) : (targetOf nnn).toNat ≤ 0x0FFF := by
  have := nnn.isLt
  rw [targetOf_toNat]; omega

theorem State.pcPlus_toNat (n : Nat) : (s.pcPlus n).toNat = (s.pc.toNat + n) % 2 ^ 16 := by
  simp [State.pcPlus, BitVec.toNat_add]

theorem addResult_eq (a b : Byte) : addResult a b = a + b := by
  apply BitVec.eq_of_toNat_eq; simp [addResult, exactSum, BitVec.toNat_add]

theorem subResult_eq (a b : Byte) : subResult a b = a - b := by
  apply BitVec.eq_of_toNat_eq
  rw [subResult, BitVec.toNat_ofInt, BitVec.toNat_sub]
  omega

/-! ## The fetch -/

/-- Everything `placeWord` does to the next fetch: where both bytes lie in memory, the fetch reads the word back. -/
theorem State.fetchOp_placeWord (hm : s.mem.wf) (h : s.pc.toNat + 1 < Config.memSize) (op : Word) :
    fetchOp (s.placeWord op) = op := by
  have h1 : (s.pcPlus 1).toNat = s.pc.toNat + 1 := by
    rw [State.pcPlus_toNat]; simp only [Config.memSize] at h; omega
  have hpc : (s.placeWord op).pc = s.pc := rfl
  have hp1 : (s.placeWord op).pcPlus 1 = s.pcPlus 1 := rfl
  have hr (a : Nat) : (s.placeWord op).readByte a =
      ((s.mem.write s.pc.toNat (hiByte op)).write (s.pcPlus 1).toNat (loByte op)).read a := rfl
  simp only [fetchOp, hpc, hp1, hr, Memory.read_write (Memory.write_wf hm _ _), Memory.read_write hm, h1, h,
    show s.pc.toNat < Config.memSize by omega, and_self, and_true, if_true, if_false,
    show ¬ s.pc.toNat = s.pc.toNat + 1 by omega, wordOfBytes_hi_lo]

/-! ## The step -/

/-- A step with a next state ran the instruction its fetched word decodes to. -/
theorem step_next_cases {t : State} (h : step s = .next t) : ∃ i, decode (fetchOp s) = some i ∧ exec i s = .next t := by
  unfold step at h
  split at h
  · exact ⟨_, ‹_›, h⟩
  · cases h

end Sys2Proof.Machine
end

