-- ==== Sys2Proof/Tests/Slice0.lean ====
section
/-!
SUPPORT. Tests whose expected results are the spec's own: words written out from 30_encoding.md R43 and R44, vectors of
95_test_vectors.md (named in each comment), ill-formed lines of R48; and the witnesses that the hypotheses of the obligations can be
met.
-/

namespace Sys2Proof.Tests

open Sys2Proof.Machine

/-! ## Helpers -/

/-- The reset state with registers set and a word placed at pc 0x0200. -/
def start (w : Nat) (vs : List (RegIdx × Byte) := []) : State :=
  (vs.foldl (fun s p => s.setReg p.1 p.2) State.reset).withFetchWord 16 w

/-- What is seen of the next state, if there is one. -/
def seen {α : Type} (f : State → α) : Host.Outcome State Fault Refusal → Option α
  | .next t => some (f t)
  | _ => none

/-- The error a step ends in, if it does. -/
def errorOf : Host.Outcome State Fault Refusal → Option Fault
  | .fault e => some e
  | _ => none

/-- One step from `start`: `V[x]`, VF and pc after it. -/
def after (w : Nat) (vs : List (RegIdx × Byte)) (x : RegIdx) : Option (Byte × Byte × Word) :=
  seen (fun t => (t.reg x, t.reg 15, t.pc)) (step (start w vs))

/-! ## Decoding words written out from the patterns of R44 -/

theorem test_decode_jump : decode 0b0001001000110100#16 = some (.jump 0x234#12) := by decide
theorem test_decode_call : decode 0b0010001100000000#16 = some (.call 0x300#12) := by decide
theorem test_decode_skipEqImm : decode 0b0011001000010001#16 = some (.skipEqImm 2 0x11#8) := by decide
theorem test_decode_skipNeqImm : decode 0b0100001000010001#16 = some (.skipNeqImm 2 0x11#8) := by decide
theorem test_decode_skipEqReg : decode 0b0101001101000000#16 = some (.skipEqReg 3 4) := by decide
theorem test_decode_loadImm : decode 0b0110101000101111#16 = some (.loadImm 10 0x2F#8) := by decide
theorem test_decode_addImm : decode 0b0111000000000011#16 = some (.addImm 0 0x03#8) := by decide
theorem test_decode_loadReg : decode 0b1000111100010000#16 = some (.loadReg 15 1) := by decide
theorem test_decode_or : decode 0b1000000000010001#16 = some (.or 0 1) := by decide
theorem test_decode_and : decode 0b1000000000010010#16 = some (.and 0 1) := by decide
theorem test_decode_xor : decode 0b1000000000010011#16 = some (.xor 0 1) := by decide
theorem test_decode_addReg : decode 0b1000000011110100#16 = some (.addReg 0 15) := by decide
theorem test_decode_subReg : decode 0b1000000000010101#16 = some (.subReg 0 1) := by decide
theorem test_decode_shiftRight : decode 0b1000000001010110#16 = some (.shiftRight 0 5) := by decide
theorem test_decode_subnReg : decode 0b1000000000010111#16 = some (.subnReg 0 1) := by decide
theorem test_decode_shiftLeft : decode 0b1000000001111110#16 = some (.shiftLeft 0 7) := by decide

/-- Vectors U1 to U6: unsupported words. -/
theorem test_decode_unsupported :
    [0x00EE#16, 0x00E0#16, 0x0FFF#16, 0x8008#16, 0x8009#16, 0x800A#16, 0x800B#16, 0x800C#16, 0x800D#16, 0x800F#16,
      0x5AB7#16, 0x9120#16, 0xA123#16, 0xB123#16, 0xC1FF#16, 0xD125#16, 0xE19E#16, 0xF107#16, 0xF115#16, 0xF118#16].all
      (fun op => (decode op).isNone) = true := by decide

/-- The first byte is the high byte, a longer sequence leaves its rest, a shorter one is rejected by name. -/
theorem test_decode_bytes :
    decodeBytes [0x12#8, 0x34#8, 0x56#8] = .ok (.jump 0x234#12, [0x56#8]) ∧
    decodeBytes [0x80#8, 0x1F#8] = .error (.unsupported 0x801F#16) ∧ decodeBytes [0x12#8] = .error .truncated :=
  ⟨rfl, rfl, rfl⟩

theorem test_decodeTableWord : decodeTableWord 16 0x820E = some (.shiftLeft 2 0) ∧ decodeTableWord 16 0x5341 = none := by
  decide

/-! ## Ill-formed lines of R48, one for each check -/

theorem test_wf_address_too_wide : (AsmLine.ins .jump [.num 0x1000]).wf = false := by decide
theorem test_wf_byte_too_wide : (AsmLine.ins .loadImm [.reg 0, .num 0x100]).wf = false := by decide
theorem test_wf_register_out_of_range : (AsmLine.ins .or [.reg 16, .reg 0]).wf = false := by decide
theorem test_wf_word_too_wide : (AsmLine.word 0x10000).wf = false := by decide
theorem test_wf_number_where_register : (AsmLine.ins .or [.reg 0, .num 1]).wf = false := by decide
theorem test_wf_register_where_number : (AsmLine.ins .addImm [.reg 0, .reg 1]).wf = false := by decide
theorem test_wf_missing_operand : (AsmLine.ins .or [.reg 0]).wf = false := by decide
theorem test_wf_surplus_operand : (AsmLine.ins .jump [.num 0, .num 0]).wf = false := by decide
/-- Lines of P1 and P4 and a `.word`, with the words the spec gives them. -/
theorem test_assemble :
    assemble (.ins .jump [.num 0x204]) = some 0x1204#16 ∧ assemble (.ins .skipEqReg [.reg 0, .reg 1]) = some 0x5010#16 ∧
    assemble (.ins .shiftRight [.reg 3]) = some 0x8306#16 ∧ assemble (.ins .addImm [.reg 0, .num 1]) = some 0x7001#16 ∧
    assemble (.word 0xFFFF) = some 0xFFFF#16 := by decide

/-! ## One step of each instruction -/

/-- J1 (an odd target) and J3. -/
theorem test_jump : seen (·.pc) (step (start 0x1203)) = some 0x0203#16 ∧ seen (·.pc) (step (start 0x1FFF)) = some 0x0FFF#16 := by
  decide
/-- CL1. -/
theorem test_call : seen (fun t => (t.stackAt 0, t.sp, t.pc)) (step (start 0x2300)) = some (0x0200#16, 1, 0x0300#16) := by decide
/-- CL2 and CL3: the sixteenth entry is written, a full stack overflows. -/
theorem test_call_full :
    seen (fun t => (t.stackAt 15, t.sp, t.pc)) (exec (.call 0xABC#12) { State.reset with pc := 0x0456#16, sp := 15 }) =
      some (0x0456#16, 16, 0x0ABC#16) ∧
    errorOf (exec (.call 0xABC#12) { State.reset with pc := 0x0456#16, sp := 16 }) = some .stackOverflow := by decide
/-- W6. -/
theorem test_skipEqImm : seen (·.pc) (step (start 0x3210 [(2, 0x10#8)])) = some 0x0204#16 ∧
    seen (·.pc) (step (start 0x3211 [(2, 0x10#8)])) = some 0x0202#16 := by decide
/-- S1 and S2. -/
theorem test_skipNeqImm : seen (·.pc) (step (start 0x4211 [(2, 0x10#8)])) = some 0x0204#16 ∧
    seen (·.pc) (step (start 0x4210 [(2, 0x10#8)])) = some 0x0202#16 := by decide
/-- S3 and S4. -/
theorem test_skipEqReg : seen (·.pc) (step (start 0x5340 [(3, 0x07#8), (4, 0x07#8)])) = some 0x0204#16 ∧
    seen (·.pc) (step (start 0x5340 [(3, 0x07#8), (4, 0x08#8)])) = some 0x0202#16 := by decide
/-- I1 and I2. -/
theorem test_loadImm : after 0x6A2F [] 10 = some (0x2F#8, 0x00#8, 0x0202#16) ∧
    after 0x6F80 [] 15 = some (0x80#8, 0x80#8, 0x0202#16) := by decide
/-- I3 and I5: no carry into VF. -/
theorem test_addImm : after 0x7003 [(0, 0xFE#8), (15, 0x05#8)] 0 = some (0x01#8, 0x05#8, 0x0202#16) ∧
    after 0x7F01 [(15, 0xFF#8)] 15 = some (0x00#8, 0x00#8, 0x0202#16) := by decide
/-- A1 and A2. -/
theorem test_loadReg : after 0x8010 [(1, 0x42#8)] 0 = some (0x42#8, 0x00#8, 0x0202#16) ∧
    after 0x8F00 [(0, 0x42#8)] 15 = some (0x42#8, 0x42#8, 0x0202#16) := by decide
/-- A4: VF is left alone. -/
theorem test_or : after 0x8011 [(0, 0xF0#8), (1, 0x0F#8), (15, 0x07#8)] 0 = some (0xFF#8, 0x07#8, 0x0202#16) := by decide
/-- A5. -/
theorem test_and : after 0x8012 [(0, 0xF0#8), (1, 0x3C#8), (15, 0x07#8)] 0 = some (0x30#8, 0x07#8, 0x0202#16) := by decide
/-- A6 and A7. -/
theorem test_xor : after 0x8013 [(0, 0xF0#8), (1, 0x3C#8), (15, 0x07#8)] 0 = some (0xCC#8, 0x07#8, 0x0202#16) ∧
    after 0x8003 [(0, 0x5A#8)] 0 = some (0x00#8, 0x00#8, 0x0202#16) := by decide
/-- W7 (a) and (b). -/
theorem test_addReg : after 0x8014 [(0, 0xFF#8), (1, 0x02#8)] 0 = some (0x01#8, 0x01#8, 0x0202#16) ∧
    after 0x8014 [(0, 0x01#8), (1, 0x02#8)] 0 = some (0x03#8, 0x00#8, 0x0202#16) := by decide
/-- A12, A13 and A14: VF as destination, as source, as both. -/
theorem test_addReg_vf : after 0x8F14 [(15, 0xF0#8), (1, 0x20#8)] 15 = some (0x10#8, 0x10#8, 0x0202#16) ∧
    after 0x80F4 [(0, 0x10#8), (15, 0x01#8)] 0 = some (0x11#8, 0x00#8, 0x0202#16) ∧
    after 0x8FF4 [(15, 0x90#8)] 15 = some (0x20#8, 0x20#8, 0x0202#16) := by decide
/-- W8 and A16: a borrow, and the flag 1 on equality. -/
theorem test_subReg : after 0x8015 [(0, 0x05#8), (1, 0x0A#8)] 0 = some (0xFB#8, 0x00#8, 0x0202#16) ∧
    after 0x8015 [(0, 0x07#8), (1, 0x07#8)] 0 = some (0x00#8, 0x01#8, 0x0202#16) := by decide
/-- A18, A19 and A20. -/
theorem test_subReg_vf : after 0x8F15 [(15, 0x05#8), (1, 0x03#8)] 15 = some (0x02#8, 0x02#8, 0x0202#16) ∧
    after 0x80F5 [(0, 0x05#8), (15, 0x01#8)] 0 = some (0x04#8, 0x01#8, 0x0202#16) ∧
    after 0x8FF5 [(15, 0x33#8)] 15 = some (0x00#8, 0x00#8, 0x0202#16) := by decide
/-- W9 and A22. -/
theorem test_shiftRight : after 0x8006 [(0, 0x03#8)] 0 = some (0x01#8, 0x01#8, 0x0202#16) ∧
    after 0x8006 [(0, 0x80#8)] 0 = some (0x40#8, 0x00#8, 0x0202#16) := by decide
/-- A25 and A26: VF as destination, `y` not read. -/
theorem test_shiftRight_vf_and_y : after 0x8F06 [(15, 0x03#8)] 15 = some (0x01#8, 0x01#8, 0x0202#16) ∧
    after 0x8056 [(0, 0x04#8), (5, 0xFF#8)] 0 = some (0x02#8, 0x00#8, 0x0202#16) := by decide
/-- A27 and A28. -/
theorem test_subnReg : after 0x8017 [(0, 0x05#8), (1, 0x0A#8)] 0 = some (0x05#8, 0x01#8, 0x0202#16) ∧
    after 0x8017 [(0, 0x0A#8), (1, 0x05#8)] 0 = some (0xFB#8, 0x00#8, 0x0202#16) := by decide
/-- A30, A31 and A32. -/
theorem test_subnReg_vf : after 0x8F17 [(15, 0x02#8), (1, 0x10#8)] 15 = some (0x0E#8, 0x0E#8, 0x0202#16) ∧
    after 0x80F7 [(0, 0x03#8), (15, 0x01#8)] 0 = some (0xFE#8, 0x00#8, 0x0202#16) ∧
    after 0x8FF7 [(15, 0x44#8)] 15 = some (0x00#8, 0x00#8, 0x0202#16) := by decide
/-- A34 and A35. -/
theorem test_shiftLeft : after 0x800E [(0, 0x81#8)] 0 = some (0x02#8, 0x01#8, 0x0202#16) ∧
    after 0x800E [(0, 0x7F#8)] 0 = some (0xFE#8, 0x00#8, 0x0202#16) := by decide
/-- A38 and A39. -/
theorem test_shiftLeft_vf_and_y : after 0x8FFE [(15, 0x81#8)] 15 = some (0x02#8, 0x02#8, 0x0202#16) ∧
    after 0x807E [(0, 0x01#8), (7, 0x80#8)] 0 = some (0x02#8, 0x00#8, 0x0202#16) := by decide

/-! ## Fetch, memory and host operations -/

/-- M1: an odd pc fetches as an even one does. -/
theorem test_odd_pc : seen (fun t => (t.reg 0, t.pc))
    (step { State.reset with pc := 0x0203#16, mem := [(0x203, 0x60#8), (0x204, 0x7A#8)] }) = some (0x7A#8, 0x0205#16) := by
  decide
/-- M2 and M3: the second byte beyond memory reads as 0x00, and the next fetch is all zero. -/
theorem test_top_of_memory :
    seen (fun t => (t.reg 0, t.pc)) (step { State.reset with pc := 0x0FFF#16, mem := [(0xFFF, 0x60#8)] }) =
      some (0x00#8, 0x1001#16) ∧
    errorOf (step { State.reset with pc := 0x1001#16, mem := [(0xFFF, 0x60#8)] }) = some (.unknownInstruction 0x0000#16) := by
  decide
/-- M4: the second fetch address wraps. -/
theorem test_fetch_wraps : errorOf (step { State.reset with pc := 0xFFFF#16, mem := [(0x000, 0x12#8)] }) =
    some (.unknownInstruction 0x0012#16) := by decide
/-- M5: LOAD drops the bytes beyond memory. -/
theorem test_load_truncates : (hostLoad 0xFFE [0x11#8, 0x22#8, 0x33#8, 0x44#8] State.reset).mem =
    [(0xFFE, 0x11#8), (0xFFF, 0x22#8)] := by decide
/-- M6 and M7: a loaded image is fetched big-endian. -/
theorem test_boot_step : seen (·.pc) (step (boot [0x12#8, 0x34#8] State.reset)) = some 0x0234#16 := by decide
/-- W1 and W2: a write is read back, a write beyond memory leaves nothing. -/
theorem test_mem_write : hostMemRead 0x123 (hostMemWrite 0x123 0xAB#8 State.reset) = 0xAB#8 ∧
    hostMemWrite 0x1000 0x55#8 State.reset = State.reset ∧ hostMemRead 70000 State.reset = 0x00#8 := by decide
/-- Writing what an unlisted address reads as removes the entry. -/
theorem test_mem_canonical :
    (hostMemWrite 5 0x00#8 (hostMemWrite 3 0x01#8 (hostMemWrite 5 0x02#8 State.reset))).mem = [(3, 0x01#8)] := by decide
/-- H2 and W10: an empty image and an 8xyF word give UnknownInstruction with the state unchanged. -/
theorem test_unknown : hostStep State.reset = (State.reset, ⟨2, 0x0000#16⟩) ∧
    hostStep (start 0x801F) = (start 0x801F, ⟨2, 0x801F#16⟩) := by decide
/-- H3, H4 and H5: the timers change by their accessors and RESET only. -/
theorem test_timers : hostGetDT (hostSetDT 0x3C#8 State.reset) = 0x3C#8 ∧
    seen (fun t => (t.reg 0, t.dt)) (step (hostSetDT 0x3C#8 (start 0x6001))) = some (0x01#8, 0x3C#8) ∧
    hostGetST (hostReset (hostSetST 0x10#8 State.reset)) = 0x00#8 := by decide
/-- The host's replies in order. -/
theorem test_hostRun :
    (hostRun [.load 0x200 [0x6A#8, 0x07#8], .step, .step, .memRead 0x201] State.reset).2 =
      [.none, .result ⟨0, 0x0000#16⟩, .result ⟨2, 0x0000#16⟩, .byte 0x07#8] := by decide

/-- W1, W2 and H3 as the host calls them: a read answers the byte at its own address and leaves the state. -/
theorem test_host_replies :
    (hostRun [.memWrite 0x123 0xAB#8, .memWrite 0x1000 0x55#8, .memRead 0x123, .memRead 0x124, .memRead 0x1000] State.reset).2 =
      [.none, .none, .byte 0xAB#8, .byte 0x00#8, .byte 0x00#8] ∧
    (hostRun [.setDT 0x3C#8, .getDT, .getST] State.reset).2 = [.none, .byte 0x3C#8, .byte 0x00#8] ∧
    (hostApply (.memRead 0x200) (start 0x6001)) = (start 0x6001, .byte 0x60#8) := by decide

/-! ## Witnesses: the hypotheses of the obligations can be met -/

theorem witness_start_wf : (start 0x1234).mem.wf ∧ State.reset.mem.wf := by decide
theorem witness_EncodeOfDecodeIsTheWord : decode 0xFFFF#16 ≠ some (.jump 0#12) ∧ decode 0x8FFE#16 = some (.shiftLeft 15 15) := by
  decide
/-- Each format of R48 at the ends of its operands' ranges, and an operand past each end refused. -/
theorem witness_WrittenLinesAssembleToTheirInstruction :
    assemble (.ins .jump [.num 0xFFF]) = some 0x1FFF#16 ∧ assemble (.ins .call [.num 0]) = some 0x2000#16 ∧
    assemble (.ins .loadImm [.reg 15, .num 0xFF]) = some 0x6FFF#16 ∧ assemble (.ins .xor [.reg 15, .reg 0]) = some 0x8F03#16 ∧
    assemble (.ins .shiftLeft [.reg 0, .reg 15]) = some 0x80FE#16 ∧ assemble (.ins .shiftLeft [.reg 15]) = some 0x8F0E#16 ∧
    assemble (.word 0) = some 0x0000#16 ∧ assemble (.ins .jump [.num 0x1000]) = none ∧
    assemble (.ins .addImm [.reg 0, .num 0x100]) = none ∧ assemble (.ins .or [.reg 0, .reg 16]) = none ∧
    assemble (.ins .shiftRight [.reg 16]) = none ∧ assemble (.word 0x10000) = none := by decide
theorem witness_FetchIsBigEndian : ({ State.reset with pc := 0xFFFE#16 } : State).pc.toNat < 0xFFFF ∧
    State.reset.pc.toNat < 0xFFFF := by decide
theorem witness_StepExecutesDecodedInstruction :
    decodeBytes [(start 0x6A2F).readByte (start 0x6A2F).pc.toNat, (start 0x6A2F).readByte (((start 0x6A2F).pc.toNat + 1) % 2 ^ 16)] =
      .ok (.loadImm 10 0x2F#8, []) := by rfl
theorem witness_StepRunsPlacedWord : State.reset.mem.wf ∧ State.reset.pc.toNat + 1 < 4096 ∧
    ({ State.reset with pc := 0x0FFE#16 } : State).pc.toNat + 1 < 4096 ∧ decodeTableWord 16 0x1234 = some (.jump 0x234#12) := by
  decide
theorem witness_HostWriteIsSeenByNextFetch : State.reset.mem.wf ∧ State.reset.pc.toNat < 4096 ∧
    (State.reset.pc.toNat + 1) % 2 ^ 16 < 4096 ∧ 4095 < 4096 := by decide
theorem witness_AccessBeyondMemoryIsNoError : 4096 ≤ ({ State.reset with pc := 0x1000#16 } : State).pc.toNat ∧ 4096 ≤ 4096 := by
  decide
theorem witness_JumpToItselfHangs : decode (fetchOp (start 0x1200)) = some (.jump 0x200#12) ∧
    (0x200#12 : Addr).toNat = (start 0x1200).pc.toNat := by decide
theorem witness_CallPushesItsAddressAndJumps : State.reset.sp.val < 16 ∧ ({ State.reset with sp := 15 } : State).sp.val < 16 := by
  decide
theorem witness_OnlyCallOnFullStackOverflows :
    errorOf (step { start 0x2ABC with sp := 16 }) = some .stackOverflow ∧ ({ start 0x2ABC with sp := 16 } : State).sp.val = 16 := by
  decide
theorem witness_CallsFillTheStackThenOverflow : (List.replicate 16 (0x200#12 : Addr)).length + State.reset.sp.val = 16 ∧
    ([] : List Addr).length + ({ State.reset with sp := 16 } : State).sp.val = 16 := by decide
theorem witness_SkipEqRegSkipsOnEqual : opF (fetchOp (start 0x5341)) = 0x5#4 ∧ opN (fetchOp (start 0x5341)) ≠ 0x0#4 ∧
    opN (fetchOp (start 0x534F)) ≠ 0x0#4 := by decide
theorem witness_flag_destination_not_vf : (0 : RegIdx) ≠ 15 ∧ (14 : RegIdx) ≠ 15 := by decide
theorem witness_InstructionsWriteOnlyTheirRegisters :
    (∃ t, exec (.addReg 0 1) State.reset = .next t) ∧ (1 : RegIdx) ∉ (Instr.addReg 0 1).writes := ⟨⟨_, rfl⟩, by decide⟩
theorem witness_InstructionsReadOnlyTheirRegisters : (15 : RegIdx) ∉ (Instr.addReg 0 1).reads ∧
    (0 : RegIdx) ∉ (Instr.loadImm 0 0x01#8).reads := by decide
/-- For StepsIgnoreTimers, StepsIgnoreIndexRegister, StepsWriteNoMemory, PcAdvancesNeverWrap, OnlyCallMovesTheStack (a step that leaves
the stack, and one that pushes) and StepKeepsInvariant. -/
theorem witness_step_next : (∃ t, step (start 0x6A2F) = .next t) ∧ (∃ t, step (start 0x2300) = .next t) := ⟨⟨_, rfl⟩, ⟨_, rfl⟩⟩
theorem witness_StepsIgnoreTimers_words : fetchOp (start 0xF107) = wordI 0xF#4 1 0x07#8 ∧
    fetchOp (start 0xFF18) = wordI 0xF#4 15 0x18#8 := by decide
theorem witness_StepKeepsInvariant : (start 0x6A2F).Inv ∧ ∃ t, step (start 0x6A2F) = .next t :=
  ⟨⟨by decide, by decide, by decide, by decide⟩, ⟨_, rfl⟩⟩
/-- PcAdvancesNeverWrap at the top of memory: a skip past it, and a JUMP back. -/
theorem witness_PcAdvancesNeverWrap_top :
    seen (·.pc) (step { State.reset with pc := 0x0FFF#16, mem := [(0xFFF, 0x30#8)] }) = some 0x1003#16 ∧
    seen (·.pc) (step { State.reset with pc := 0x0FFF#16, mem := [(0xFFF, 0x10#8)] }) = some 0x0000#16 := by decide
/-- For FailedStepChangesNothing and RestepGivesTheSameError, one error each. -/
theorem witness_failed_step : step State.reset = .fault (.unknownInstruction 0x0000#16) ∧
    step { start 0x2ABC with sp := 16 } = .fault .stackOverflow := ⟨rfl, rfl⟩
theorem witness_MemWriteStoresOneByte : State.reset.mem.wf ∧ 4095 < 4096 ∧ 4096 ≤ 4096 ∧ 0 ≠ 4095 := by decide
theorem witness_LoadCopiesTheImage : State.reset.mem.wf ∧ [0x11#8, 0x22#8][1]? = some 0x22#8 ∧ 0xFFE + 1 < 4096 ∧
    0xFFD < 0xFFE ∧ 0xFFE + [0x11#8, 0x22#8].length ≤ 0x1000 := by decide
theorem witness_HostOperationsKeepInvariant : State.reset.Inv := ⟨by decide, by decide, by decide, by decide⟩
/-- A run that ends at launch, one that ends after a step, and one that ends in StackOverflow. -/
theorem witness_RunsEndAtUnsupportedWordOrFullStackCall :
    EndsWith State.reset State.reset (.unknownInstruction 0x0000#16) ∧
    (∃ t, EndsWith (start 0x6A2F) t (.unknownInstruction 0x0000#16)) ∧
    EndsWith { start 0x2ABC with sp := 16 } { start 0x2ABC with sp := 16 } .stackOverflow :=
  ⟨⟨.launch, rfl⟩, ⟨_, .step .launch rfl, rfl⟩, ⟨.launch, rfl⟩⟩
/-- The hypotheses of HostOperationsAnswerPerInterface: an address at the end of memory, and a step of each result. -/
theorem witness_HostOperationsAnswerPerInterface : 4096 ≤ 4096 ∧ State.reset.mem.wf ∧ (∃ t, step (start 0x6A2F) = .next t) ∧
    step { start 0x2ABC with sp := 16 } = .fault .stackOverflow ∧
    step State.reset = .fault (.unknownInstruction 0x0000#16) := ⟨by decide, by decide, ⟨_, rfl⟩, rfl, rfl⟩
theorem witness_CanonicalMemoryIsUnique : Memory.wf [(0, 0x01#8), (4095, 0xFF#8)] ∧
    (∀ a : Nat, Memory.read [(0, 0x01#8), (4095, 0xFF#8)] a = Memory.read [(0, 0x01#8), (4095, 0xFF#8)] a) :=
  ⟨by decide, fun _ => rfl⟩

end Sys2Proof.Tests
end

section
/-!
PROOFS, the state (10_state.md). Rules for the writes of a step: which registers a list of writes reaches, how it
commutes with a change made before the step, and what a step depends on.
-/

namespace Sys2Proof.Machine

/-! ## The registers a list of writes reaches -/

/-- The register a write goes to, if it goes to one. -/
def Write.reg? : Write → Option RegIdx
  | .reg x _ => some x
  | _ => none

/-- The registers a list of writes goes to, in its order. -/
def writtenRegs (ws : List Write) : List RegIdx := ws.filterMap Write.reg?

@[simp] theorem writtenRegs_nil : writtenRegs [] = [] := rfl
@[simp] theorem writtenRegs_cons_reg (x : RegIdx) (b : Byte) (ws : List Write) :
    writtenRegs (.reg x b :: ws) = x :: writtenRegs ws := rfl
@[simp] theorem writtenRegs_cons_pc (w : Word) (ws : List Write) : writtenRegs (.pc w :: ws) = writtenRegs ws := rfl
@[simp] theorem writtenRegs_cons_stack (j : Fin 16) (w : Word) (ws : List Write) :
    writtenRegs (.stack j w :: ws) = writtenRegs ws := rfl
@[simp] theorem writtenRegs_cons_sp (n : Fin 17) (ws : List Write) : writtenRegs (.sp n :: ws) = writtenRegs ws := rfl

/-! ## Changes made before the writes -/

theorem State.setReg_setReg_same (s : State) (x : RegIdx) (b c : Byte) : (s.setReg x b).setReg x c = s.setReg x c := by
  simp [State.setReg]

theorem State.setReg_comm (s : State) {x y : RegIdx} (h : x ≠ y) (b c : Byte) :
    (s.setReg x b).setReg y c = (s.setReg y c).setReg x b := by
  simp [State.setReg, Vector.set_comm b c (Fin.val_ne_of_ne h)]

/-- A change that commutes with every write commutes with every list of writes. -/
theorem State.commit_comm {f : State → State} (hf : ∀ s w, (f s).apply w = f (s.apply w)) (s : State) (ws : List Write) :
    (f s).commit ws = f (s.commit ws) :=
  List.foldl_hom f hf

/-- Writes leave a register they do not go to. -/
theorem State.reg_commit_of_not_mem (s : State) {r : RegIdx} {ws : List Write} (h : r ∉ writtenRegs ws) :
    (s.commit ws).reg r = s.reg r := by
  induction ws generalizing s with
  | nil => rfl
  | cons w ws ih =>
    cases w with
    | reg x c =>
      obtain ⟨hx, hws⟩ := List.ne_and_not_mem_of_not_mem_cons h
      rw [State.commit_cons, ih _ hws, State.apply_reg, State.reg_setReg_ne s hx]
    | pc w => exact ih _ h
    | stack j w => exact ih _ h
    | sp n => exact ih _ h

/-- A register changed before the writes: they overwrite the change, or leave it. -/
theorem State.commit_setReg (s : State) (r : RegIdx) (b : Byte) (ws : List Write) :
    (s.setReg r b).commit ws = if r ∈ writtenRegs ws then s.commit ws else (s.commit ws).setReg r b := by
  induction ws generalizing s with
  | nil => rfl
  | cons w ws ih =>
    cases w with
    | reg x c =>
      by_cases hx : r = x
      · subst hx
        simp [State.setReg_setReg_same]
      · simp [State.setReg_comm s hx, ih, hx]
    | pc w => exact ih { s with pc := w }
    | stack j w => exact ih (s.setStack j w)
    | sp n => exact ih { s with sp := n }

/-! ## What an instruction depends on -/

/-- `s'` has the pc and the stack pointer of `s`, and its values in the registers `i` reads by the table of R9. -/
structure SameInputs (i : Instr) (s s' : State) : Prop where
  pc : s'.pc = s.pc
  sp : s'.sp = s.sp
  reads : ∀ r ∈ i.reads, s'.reg r = s.reg r

namespace SameInputs

variable {i : Instr} {s s' : State}

theorem refl (i : Instr) (s : State) : SameInputs i s s := ⟨rfl, rfl, fun _ _ => rfl⟩

theorem reg_eq (h : SameInputs i s s') {x : RegIdx} (hi : i.reads = [x]) : s'.reg x = s.reg x :=
  h.reads x (by simp [hi])

theorem regs_eq (h : SameInputs i s s') {x y : RegIdx} (hi : i.reads = [x, y]) : s'.reg x = s.reg x ∧ s'.reg y = s.reg y :=
  ⟨h.reads x (by simp [hi]), h.reads y (by simp [hi])⟩

end SameInputs

theorem plainWrites_of_pc_eq {s s' : State} (h : s'.pc = s.pc) (x : RegIdx) (r : Byte) :
    plainWrites s' x r = plainWrites s x r := by
  simp [plainWrites, State.pcPlus, h]

theorem flaggedWrites_of_pc_eq {s s' : State} (h : s'.pc = s.pc) (x : RegIdx) (f r : Byte) :
    flaggedWrites s' x f r = flaggedWrites s x f r := by
  simp [flaggedWrites, State.pcPlus, h]

/-- From every state with the inputs of `s`, the instruction commits the one list of writes `ws`, which goes to the registers the
table of R9 says it writes. -/
def CommitsFrom (i : Instr) (s : State) (ws : List Write) : Prop :=
  writtenRegs ws = i.writes ∧ ∀ s', SameInputs i s s' → exec i s' = .next (s'.commit ws)

section

variable {i : Instr} {s : State} {x : RegIdx}

theorem skip_commitsFrom (c : State → Bool) (hw : i.writes = []) (he : ∀ s, exec i s = skipIf (c s) s)
    (hc : ∀ s', SameInputs i s s' → c s' = c s) : ∃ ws, CommitsFrom i s ws :=
  ⟨[.pc (if c s then s.pcPlus 4 else s.pcPlus 2)], hw.symm,
    fun s' h => by simp only [he, skipIf, hc s' h, State.pcPlus, h.pc]⟩

theorem plain_commitsFrom (r : State → Byte) (hw : i.writes = [x])
    (he : ∀ s, exec i s = .next (s.commit (plainWrites s x (r s)))) (hr : ∀ s', SameInputs i s s' → r s' = r s) :
    ∃ ws, CommitsFrom i s ws :=
  ⟨plainWrites s x (r s), hw.symm, fun s' h => by rw [he, hr s' h, plainWrites_of_pc_eq h.pc]⟩

theorem flagged_commitsFrom (f r : State → Byte) (hw : i.writes = [Config.flagReg, x])
    (he : ∀ s, exec i s = .next (s.commit (flaggedWrites s x (f s) (r s))))
    (hfr : ∀ s', SameInputs i s s' → f s' = f s ∧ r s' = r s) : ∃ ws, CommitsFrom i s ws :=
  ⟨flaggedWrites s x (f s) (r s), hw.symm,
    fun s' h => by
      obtain ⟨hf, hr⟩ := hfr s' h
      rw [he, hf, hr, flaggedWrites_of_pc_eq h.pc]⟩

end

/-- Every instruction either commits one list of writes from all states with the same inputs, or overflows the stack from all of
them. -/
theorem exec_commitsFrom_or_overflows (i : Instr) (s : State) :
    (∃ ws, CommitsFrom i s ws) ∨ ∀ s', SameInputs i s s' → exec i s' = .fault .stackOverflow := by
  cases i with
  | jump nnn => exact .inl ⟨[.pc (targetOf nnn)], rfl, fun _ _ => rfl⟩
  | call nnn =>
    by_cases h : s.sp.val < Config.stackDepth
    · exact .inl ⟨[.stack ⟨s.sp.val, h⟩ s.pc, .sp ⟨s.sp.val + 1, Nat.succ_lt_succ h⟩, .pc (targetOf nnn)], rfl,
        fun s' hs => by simp [exec, execCall, hs.sp, hs.pc, h]⟩
    · exact .inr fun s' hs => by simp [exec, execCall, hs.sp, h, raise]
  | skipEqImm x kk =>
    exact .inl (skip_commitsFrom (fun s => s.reg x == kk)
      rfl (fun _ => rfl) fun _ h => by simp only [h.reg_eq rfl])
  | skipNeqImm x kk =>
    exact .inl (skip_commitsFrom (fun s => s.reg x != kk)
      rfl (fun _ => rfl) fun _ h => by simp only [h.reg_eq rfl])
  | skipEqReg x y =>
    exact .inl (skip_commitsFrom (fun s => s.reg x == s.reg y)
      rfl (fun _ => rfl) fun _ h => by simp only [h.regs_eq rfl])
  | loadImm x kk =>
    exact .inl (plain_commitsFrom (fun _ => kk)
      rfl (fun _ => rfl) fun _ _ => rfl)
  | addImm x kk =>
    exact .inl (plain_commitsFrom (fun s => addResult (s.reg x) kk)
      rfl (fun _ => rfl) fun _ h => by simp only [h.reg_eq rfl])
  | loadReg x y =>
    exact .inl (plain_commitsFrom (fun s => s.reg y)
      rfl (fun _ => rfl) fun _ h => by simp only [h.reg_eq rfl])
  | or x y =>
    exact .inl (plain_commitsFrom (fun s => s.reg x ||| s.reg y)
      rfl (fun _ => rfl) fun _ h => by simp only [h.regs_eq rfl])
  | and x y =>
    exact .inl (plain_commitsFrom (fun s => s.reg x &&& s.reg y)
      rfl (fun _ => rfl) fun _ h => by simp only [h.regs_eq rfl])
  | xor x y =>
    exact .inl (plain_commitsFrom (fun s => s.reg x ^^^ s.reg y)
      rfl (fun _ => rfl) fun _ h => by simp only [h.regs_eq rfl])
  | addReg x y =>
    exact .inl (flagged_commitsFrom (fun s => carryFlag (s.reg x) (s.reg y)) (fun s => addResult (s.reg x) (s.reg y))
      rfl (fun _ => rfl) fun _ h => by simp only [h.regs_eq rfl, and_self])
  | subReg x y =>
    exact .inl (flagged_commitsFrom (fun s => notBorrowFlag (s.reg x) (s.reg y)) (fun s => subResult (s.reg x) (s.reg y))
      rfl (fun _ => rfl) fun _ h => by simp only [h.regs_eq rfl, and_self])
  | shiftRight x y =>
    exact .inl (flagged_commitsFrom (fun s => shiftedOutRight (s.reg x)) (fun s => shiftRightResult (s.reg x))
      rfl (fun _ => rfl) fun _ h => by simp only [h.reg_eq rfl, and_self])
  | subnReg x y =>
    exact .inl (flagged_commitsFrom (fun s => notBorrowFlag (s.reg y) (s.reg x)) (fun s => subResult (s.reg y) (s.reg x))
      rfl (fun _ => rfl) fun _ h => by simp only [h.regs_eq rfl, and_self])
  | shiftLeft x y =>
    exact .inl (flagged_commitsFrom (fun s => shiftedOutLeft (s.reg x)) (fun s => shiftLeftResult (s.reg x))
      rfl (fun _ => rfl) fun _ h => by simp only [h.reg_eq rfl, and_self])

/-- A next state is the state before it with a list of writes committed that goes to the registers the table of R9 says. -/
theorem exec_next_commits {i : Instr} {s t : State} (h : exec i s = .next t) :
    ∃ ws, writtenRegs ws = i.writes ∧ t = s.commit ws := by
  rcases exec_commitsFrom_or_overflows i s with ⟨ws, hw, he⟩ | hf
  · exact ⟨ws, hw, Host.Outcome.next.inj (h.symm.trans (he s (.refl i s)))⟩
  · rw [hf s (.refl i s)] at h
    cases h

/-- The outcomes from two states with the same inputs correspond, if the states after the same writes do. -/
theorem exec_of_sameInputs {i : Instr} {s s' : State} {f : State → State} (h : SameInputs i s s')
    (hf : ∀ ws, writtenRegs ws = i.writes → s'.commit ws = f (s.commit ws)) : exec i s' = mapNext f (exec i s) := by
  rcases exec_commitsFrom_or_overflows i s with ⟨ws, hw, he⟩ | hov
  · rw [he s' h, he s (.refl i s), hf ws hw, mapNext]
  · rw [hov s' h, hov s (.refl i s), mapNext]

/-! ## The step -/

theorem step_of_decode_eq_some {s : State} {i : Instr} (h : decode (fetchOp s) = some i) : step s = exec i s := by
  rw [step, h]

theorem step_of_decode_eq_none {s : State} (h : decode (fetchOp s) = none) :
    step s = .fault (.unknownInstruction (fetchOp s)) := by
  rw [step, h, raise]

/-- A change of the state that every write commutes with, and that leaves all a step reads, changes the outcome by itself alone. -/
theorem step_comm {f : State → State} (hf : ∀ s w, (f s).apply w = f (s.apply w)) {s : State}
    (hv : (f s).v = s.v) (hpc : (f s).pc = s.pc) (hsp : (f s).sp = s.sp) (hm : (f s).mem = s.mem) :
    step (f s) = mapNext f (step s) := by
  have hfetch : fetchOp (f s) = fetchOp s := by simp only [fetchOp, State.readByte, State.pcPlus, hpc, hm]
  cases hd : decode (fetchOp s) with
  | none => rw [step_of_decode_eq_none hd, step_of_decode_eq_none (hfetch ▸ hd), hfetch, mapNext]
  | some i =>
    rw [step_of_decode_eq_some hd, step_of_decode_eq_some (hfetch ▸ hd)]
    exact exec_of_sameInputs ⟨hpc, hsp, fun r _ => by rw [State.reg, State.reg, hv]⟩ fun ws _ => State.commit_comm hf s ws

/-- A step leaves memory, the index register and both timers. -/
theorem step_next_untouched {s t : State} (h : step s = .next t) : t.mem = s.mem ∧ t.i = s.i ∧ t.dt = s.dt ∧ t.st = s.st := by
  obtain ⟨i, -, he⟩ := step_next_cases s h
  obtain ⟨ws, rfl⟩ := exec_next_is_commit s he
  exact s.commit_untouched ws

/-! ## pc and the call stack -/

/-- What an instruction with next state `t` did to pc, `sp` and the stack: a JUMP, a CALL with a free entry, or 2 or 4 bytes on. -/
inductive ControlEffect (s t : State) : Instr → Prop where
  | jump (nnn : Addr) (hpc : t.pc = targetOf nnn) (hsp : t.sp = s.sp) (hst : t.stack = s.stack) : ControlEffect s t (.jump nnn)
  | call (nnn : Addr) (h : s.sp.val < Config.stackDepth) (hpc : t.pc = targetOf nnn) (hsp : t.sp.val = s.sp.val + 1)
      (hst : t.stack = (s.setStack ⟨s.sp.val, h⟩ s.pc).stack) : ControlEffect s t (.call nnn)
  | advance {i : Instr} (n : Nat) (hn : n = 2 ∨ n = 4) (hpc : t.pc = s.pcPlus n) (hsp : t.sp = s.sp) (hst : t.stack = s.stack) :
      ControlEffect s t i

/-- A next state that differs in the registers and is `n` bytes on advances. -/
theorem advance_controlEffect {v : Vector Byte 16} {n : Nat} {s t : State} (i : Instr) (hn : n = 2 ∨ n = 4)
    (h : (.next { s with v := v, pc := s.pcPlus n } : Host.Outcome State Fault Refusal) = .next t) : ControlEffect s t i := by
  obtain rfl := Host.Outcome.next.inj h
  exact .advance n hn rfl rfl rfl

theorem skipIf_controlEffect {c : Bool} {s t : State} (i : Instr) (h : skipIf c s = .next t) : ControlEffect s t i := by
  cases c with
  | true => exact advance_controlEffect i (.inr rfl) h
  | false => exact advance_controlEffect i (.inl rfl) h

theorem exec_next_controlEffect {i : Instr} {s t : State} (h : exec i s = .next t) : ControlEffect s t i := by
  cases i with
  | jump nnn =>
    obtain rfl := Host.Outcome.next.inj h
    exact .jump nnn rfl rfl rfl
  | call nnn =>
    rw [exec] at h
    by_cases hsp : s.sp.val < Config.stackDepth
    · rw [execCall_of_lt s nnn hsp] at h
      obtain rfl := Host.Outcome.next.inj h
      exact .call nnn hsp rfl rfl rfl
    · rw [execCall, dif_neg hsp, raise] at h
      cases h
  | skipEqImm | skipNeqImm | skipEqReg => exact skipIf_controlEffect _ h
  | loadImm | addImm | loadReg | or | and | xor | addReg | subReg | shiftRight | subnReg | shiftLeft =>
    exact advance_controlEffect _ (.inl rfl) h

/-- A step with a next state did to pc and the call stack what the instruction it ran does. -/
theorem step_next_controlEffect {s t : State} (h : step s = .next t) :
    ∃ i, decode (fetchOp s) = some i ∧ ControlEffect s t i := by
  obtain ⟨i, hd, he⟩ := step_next_cases s h
  exact ⟨i, hd, exec_next_controlEffect he⟩

/-! ## A pc outside memory -/

theorem opF_eq_hiByte (op : Word) : opF op = (hiByte op).extractLsb' 4 4 :=
  (extract_extract op 8 4 8 4 (by decide)).symm

theorem hiByte_fetchOp (s : State) : hiByte (fetchOp s) = s.readByte s.pc.toNat := hiByte_wordOfBytes _ _

/-- A fetch from beyond memory reads a word of family 0 (R75). -/
theorem opF_fetchOp_of_pc_ge {s : State} (h : Config.memSize ≤ s.pc.toNat) : opF (fetchOp s) = 0x0#4 := by
  rw [opF_eq_hiByte, hiByte_fetchOp, State.readByte, Memory.read_of_ge _ h]
  decide

theorem decode_of_opF_eq_zero {op : Word} (h : opF op = 0x0#4) : decode op = none := by simp [decode, h]

theorem decode_of_opF_eq_fifteen {op : Word} (h : opF op = 0xF#4) : decode op = none := by simp [decode, h]

/-- A step with a next state fetched its first byte from memory. -/
theorem step_next_pc_lt {s t : State} (h : step s = .next t) : s.pc.toNat < Config.memSize := by
  by_contra hge
  rw [step_of_decode_eq_none (decode_of_opF_eq_zero (opF_fetchOp_of_pc_ge (Nat.le_of_not_lt hge)))] at h
  cases h

/-- From inside memory, a pc that advances by a few bytes does not wrap. -/
theorem State.pcPlus_toNat_of_lt {s : State} {n : Nat} (h : s.pc.toNat < Config.memSize) (hn : n ≤ 4) :
    (s.pcPlus n).toNat = s.pc.toNat + n := by
  rw [State.pcPlus_toNat]
  simp only [Config.memSize] at h
  omega

end Sys2Proof.Machine
end

section
/-!
PROOFS, the statements on instructions and steps (10_state.md R9 to R17).
-/

namespace Sys2Proof.Machine

/-- Settles O33: the writes an instruction commits go to the registers of the table. -/
theorem instructionsWriteOnlyTheirRegisters : Obligations.InstructionsWriteOnlyTheirRegisters := by
  intro i s t r h hr
  obtain ⟨ws, hw, rfl⟩ := exec_next_commits h
  exact s.reg_commit_of_not_mem (hw ▸ hr)

/-- Settles O34: a register not read leaves the inputs as they are, and the writes overwrite its new value or leave it. -/
theorem instructionsReadOnlyTheirRegisters : Obligations.InstructionsReadOnlyTheirRegisters := by
  intro i s r b hr
  have hin : SameInputs i s (s.setReg r b) :=
    ⟨rfl, rfl, fun q hq => s.reg_setReg_ne (ne_of_mem_of_not_mem hq hr) b⟩
  exact exec_of_sameInputs hin fun ws hw => by rw [State.commit_setReg, hw]

/-- Settles O35: no write goes to a timer and no step reads one, and the timer instructions' words are of family F. -/
theorem stepsIgnoreTimers : Obligations.StepsIgnoreTimers := by
  refine ⟨fun s d e => ?_, fun s t h => ?_, fun s x kk _ hop => ?_⟩
  · exact step_comm (f := fun t => { t with dt := d, st := e }) (fun _ w => by cases w <;> rfl) rfl rfl rfl rfl
  · obtain ⟨-, -, hdt, hst⟩ := step_next_untouched h
    exact ⟨hdt, hst⟩
  · rw [← hop]
    exact step_of_decode_eq_none (decode_of_opF_eq_fifteen (by rw [hop, opF_wordI]))

/-- Settles O36: no write goes to the index register and no step reads it. -/
theorem stepsIgnoreIndexRegister : Obligations.StepsIgnoreIndexRegister := by
  refine ⟨fun s w => ?_, fun s t h => ?_⟩
  · exact step_comm (f := fun t => { t with i := w }) (fun _ w => by cases w <;> rfl) rfl rfl rfl rfl
  · obtain ⟨-, hi, -, -⟩ := step_next_untouched h
    exact hi

/-- Settles O38: a step starts inside memory, so 2 or 4 bytes on is no wrap, and a target has 12 bits. -/
theorem pcAdvancesNeverWrap : Obligations.PcAdvancesNeverWrap := by
  intro s t h
  have hlt := step_next_pc_lt h
  have hs : s.pc.toNat ≤ 0x0FFF := Nat.le_of_lt_succ hlt
  obtain ⟨i, hd, he⟩ := step_next_controlEffect h
  cases he with
  | jump nnn hpc _ _ =>
    have := targetOf_toNat_le nnn
    exact ⟨hs, by rw [hpc]; omega, .inr (.inr ⟨nnn, .inl hd, by rw [hpc, targetOf_toNat]⟩)⟩
  | call nnn _ hpc _ _ =>
    have := targetOf_toNat_le nnn
    exact ⟨hs, by rw [hpc]; omega, .inr (.inr ⟨nnn, .inr hd, by rw [hpc, targetOf_toNat]⟩)⟩
  | advance n hn hpc _ _ =>
    have ht : t.pc.toNat = s.pc.toNat + n := by rw [hpc, State.pcPlus_toNat_of_lt hlt (by omega)]
    exact ⟨hs, by omega, by omega⟩

/-- Settles O39, by what the instruction did to the call stack. -/
theorem onlyCallMovesTheStack : Obligations.OnlyCallMovesTheStack := by
  intro s t h
  obtain ⟨i, hd, he⟩ := step_next_controlEffect h
  cases he with
  | jump _ _ hsp hst => exact .inl ⟨hsp, hst⟩
  | advance _ _ _ hsp hst => exact .inl ⟨hsp, hst⟩
  | call nnn hfree _ hsp hst =>
    refine .inr ⟨⟨nnn, hd⟩, hsp, fun j hj => ?_⟩
    rw [State.stackAt, hst]
    exact s.stackAt_setStack_ne (Fin.ne_of_val_ne hj) s.pc

/-- Settles O50: pc by `PcAdvancesNeverWrap`, the free entries by `OnlyCallMovesTheStack`, and the rest is untouched. -/
theorem stepKeepsInvariant : Obligations.StepKeepsInvariant := by
  intro s t hs h
  obtain ⟨hm, hi, -, -⟩ := step_next_untouched h
  obtain ⟨-, hpc, -⟩ := pcAdvancesNeverWrap s t h
  refine ⟨hm ▸ hs.mem_wf, hpc, hi.trans hs.i_zero, fun j hj => ?_⟩
  obtain ⟨hsp, hst⟩ | ⟨-, hsp, hst⟩ := onlyCallMovesTheStack s t h
  · rw [State.stackAt, hst]
    exact hs.stack_zero j (hsp ▸ hj)
  · rw [hst j (by omega)]
    exact hs.stack_zero j (by omega)

end Sys2Proof.Machine
end

section
/-!
PROOFS, the statements on the host's operations (10_state.md R18, R22; 20_memory.md R29, R30).
-/

namespace Sys2Proof.Machine

/-! ## What each operation does -/

/-- Everything `Memory.load` does to what is read, on a canonical list. -/
theorem Memory.read_load {m : Memory} (hm : m.wf) (offset c : Nat) (bytes : List Byte) :
    (m.load offset bytes).read c =
      if offset ≤ c ∧ c < Config.memSize then bytes.getD (c - offset) (m.read c) else m.read c := by
  induction bytes generalizing m offset with
  | nil => simp [Memory.load]
  | cons b bs ih =>
    rw [Memory.load, ih (Memory.write_wf hm offset b), Memory.read_write hm]
    rcases Nat.lt_trichotomy c offset with hlt | rfl | hgt
    · simp [Nat.not_le.2 hlt, Nat.ne_of_lt hlt, show ¬ offset + 1 ≤ c by omega]
    · simp
    · simp [Nat.le_of_lt hgt, Nat.ne_of_gt hgt, show offset + 1 ≤ c from hgt, show c - offset = c - (offset + 1) + 1 by omega]

theorem hostStep_of_next {s t : State} (h : step s = .next t) : hostStep s = (t, ⟨0, 0x0000#16⟩) := by
  rw [hostStep, h, stateAfter, StepResult.ofOutcome]

/-- A failed STEP leaves the state as it was (R77). -/
theorem hostStep_of_fault {s : State} {e : Fault} (h : step s = .fault e) :
    hostStep s = (s, StepResult.ofOutcome (.fault e)) := by
  rw [hostStep, h, stateAfter]

/-- A property that every operation keeps holds after every sequence of operations. -/
theorem hostRun_keeps {P : State → Prop} (hP : ∀ o s, P s → P (hostApply o s).1) (os : List HostOp) {s : State} (hs : P s) :
    P (hostRun os s).1 := by
  induction os generalizing s with
  | nil => exact hs
  | cons o os ih => exact ih (hP o s hs)

/-! ## The statements -/

/-- Settles O47: each accessor is the update or the read of one field. -/
theorem timerAccessorsSetAndGet : Obligations.TimerAccessorsSetAndGet :=
  fun _ _ => ⟨rfl, rfl, rfl, rfl, rfl, rfl⟩

/-- Settles O49. -/
theorem resetMeetsInvariant : Obligations.ResetMeetsInvariant where
  mem_wf := State.reset_mem_wf
  pc_le := by decide
  i_zero := rfl
  stack_zero j _ := State.reset_stackAt j

/-- A STEP keeps the invariant, whether it fails or not. -/
theorem hostStep_inv {s : State} (hs : s.Inv) : (hostStep s).1.Inv := by
  cases h : step s with
  | next t => rw [hostStep_of_next h]; exact stepKeepsInvariant s t hs h
  | fault e => rw [hostStep_of_fault h]; exact hs
  | refused r => rw [hostStep, h]; exact hs

theorem hostApply_inv (o : HostOp) (s : State) (hs : s.Inv) : (hostApply o s).1.Inv := by
  cases o with
  | step => exact hostStep_inv hs
  | reset => exact resetMeetsInvariant
  | load offset bytes => exact { hs with mem_wf := Memory.load_wf hs.mem_wf offset bytes }
  | memWrite a b => exact { hs with mem_wf := Memory.write_wf hs.mem_wf a b }
  | setDT | setST => exact { hs with }
  | memRead | getDT | getST => exact hs

/-- Settles O51: each operation keeps the invariant, and reset meets it. -/
theorem hostOperationsKeepInvariant : Obligations.HostOperationsKeepInvariant :=
  ⟨hostApply_inv, fun os => hostRun_keeps hostApply_inv os resetMeetsInvariant⟩

/-- Settles O54, one operation after another. -/
theorem hostOperationsAnswerPerInterface : Obligations.HostOperationsAnswerPerInterface := by
  intro s
  refine ⟨fun _ => rfl, fun a ha => ?memReadBeyond, fun hm a c b => ?memWrite, fun hm offset c bytes => ?load,
    fun _ _ => rfl, rfl, fun t h => ?stepNext, fun h => ?stepOverflow, fun op h => ?stepUnknown⟩
  case memReadBeyond => rw [hostApply, hostMemRead, State.readByte, Memory.read_of_ge _ ha]
  case memWrite => exact congrArg (fun v => [HostReply.none, .byte v]) (Memory.read_write hm a c b)
  case load => exact congrArg (fun v => [HostReply.none, .byte v]) (Memory.read_load hm offset c bytes)
  case stepNext => rw [hostApply, hostStep_of_next h]
  case stepOverflow => rw [hostApply, hostStep_of_fault h, StepResult.ofOutcome]
  case stepUnknown => rw [hostApply, hostStep_of_fault h, StepResult.ofOutcome]

end Sys2Proof.Machine
end

section
/-!
PROOFS, the statements on memory and the fetch (20_memory.md R25 to R31).
-/

namespace Sys2Proof.Machine

/-! ## What a host write and a LOAD do to each read -/

/-- Everything MEM_WRITE does to what MEM_READ answers. -/
theorem hostMemRead_hostMemWrite {s : State} (hm : s.mem.wf) (a c : Nat) (b : Byte) :
    hostMemRead c (hostMemWrite a b s) = if c = a ∧ a < Config.memSize then b else hostMemRead c s :=
  Memory.read_write hm a c b

/-- A write beyond memory has no effect (R27). -/
theorem hostMemWrite_of_ge {a : Nat} (h : Config.memSize ≤ a) (b : Byte) (s : State) : hostMemWrite a b s = s := by
  rw [hostMemWrite, State.writeByte, Memory.write, if_neg (Nat.not_lt.2 h)]

/-- Everything LOAD does to what MEM_READ answers. -/
theorem hostMemRead_hostLoad {s : State} (hm : s.mem.wf) (offset c : Nat) (bytes : List Byte) :
    hostMemRead c (hostLoad offset bytes s) =
      if offset ≤ c ∧ c < Config.memSize then bytes.getD (c - offset) (hostMemRead c s) else hostMemRead c s :=
  Memory.read_load hm offset c bytes

/-! ## The cells of a canonical memory -/

theorem Memory.read_of_lt (m : Memory) {a : Nat} (h : a < Config.memSize) : m.read a = m.lookup a := if_pos h

/-- An address that does not look up as an unlisted one is listed with the byte it looks up as. -/
theorem Memory.mem_of_lookup_ne {m : Memory} {a : Nat} (h : m.lookup a ≠ Memory.unlisted) : (a, m.lookup a) ∈ m := by
  induction m with
  | nil => exact absurd rfl h
  | cons c m ih =>
    obtain ⟨k, e⟩ := c
    by_cases hk : k = a
    · simp [Memory.lookup, hk]
    · rw [Memory.lookup, if_neg hk] at h ⊢
      exact List.mem_cons_of_mem _ (ih h)

/-- In a canonical memory a listed address looks up as the byte it is listed with. -/
theorem Memory.lookup_of_mem {m : Memory} (hm : m.wf) {c : Host.Cell} (hc : c ∈ m) : m.lookup c.1 = c.2 := by
  induction m with
  | nil => cases hc
  | cons d m ih =>
    obtain ⟨hlt, -, -, hm'⟩ := Memory.wf_cons.1 hm
    rw [Memory.lookup]
    rcases List.mem_cons.1 hc with rfl | hc
    · exact if_pos rfl
    · rw [if_neg (Nat.ne_of_lt (hlt c hc)), ih hm' hc]

/-- The cells of a canonical memory are the addresses that do not read as an unlisted one, each with the byte read there. -/
theorem Memory.mem_iff_read {m : Memory} (hm : m.wf) (c : Host.Cell) : c ∈ m ↔ m.read c.1 = c.2 ∧ c.2 ≠ Memory.unlisted := by
  constructor
  · intro hc
    obtain ⟨hlt, hne⟩ := hm.2 c hc
    exact ⟨(m.read_of_lt hlt).trans (Memory.lookup_of_mem hm hc), hne⟩
  · rintro ⟨hr, hne⟩
    by_cases hlt : c.1 < Config.memSize
    · rw [m.read_of_lt hlt] at hr
      have hmem := Memory.mem_of_lookup_ne (hr ▸ hne)
      rwa [hr] at hmem
    · exact absurd (hr.symm.trans (m.read_of_ge (Nat.le_of_not_lt hlt))) hne

/-! ## The fetched bytes -/

theorem loByte_fetchOp (s : State) : loByte (fetchOp s) = s.readByte ((s.pc.toNat + 1) % 2 ^ 16) := by
  rw [fetchOp, loByte_wordOfBytes, State.pcPlus_toNat]

/-! ## The statements -/

/-- Settles O37: a step's writes leave memory, and a read depends on memory alone. -/
theorem stepsWriteNoMemory : Obligations.StepsWriteNoMemory := by
  intro s t h
  obtain ⟨hm, -, -, -⟩ := step_next_untouched h
  exact ⟨hm, fun a => by rw [State.readByte, State.readByte, hm]⟩

/-- Settles O45, by what a write does to each read. -/
theorem memWriteStoresOneByte : Obligations.MemWriteStoresOneByte := by
  intro s a b hm
  refine ⟨fun ha => ?_, fun c hc => ?_, fun ha => hostMemWrite_of_ge ha b s, rfl⟩
  · rw [hostMemRead_hostMemWrite hm, if_pos ⟨rfl, ha⟩]
  · rw [hostMemRead_hostMemWrite hm, if_neg fun h => hc h.1]

/-- Settles O46, by what a LOAD does to each read: below the image it gives the old byte, and so it does where the image has ended. -/
theorem loadCopiesTheImage : Obligations.LoadCopiesTheImage := by
  intro s offset bytes hm
  refine ⟨fun k b hk hlt => ?inside, fun a ha => ?outside, rfl⟩
  case inside =>
    rw [hostMemRead_hostLoad hm, if_pos ⟨Nat.le_add_right offset k, hlt⟩, Nat.add_sub_cancel_left, List.getD_eq_getElem?_getD,
      hk, Option.getD_some]
  case outside =>
    rw [hostMemRead_hostLoad hm]
    rcases ha with hbelow | habove
    · rw [if_neg fun h => Nat.not_le.2 hbelow h.1]
    · rw [List.getD_eq_default _ _ (Nat.le_sub_of_add_le' habove), ite_self]

/-- Settles O53: both memories list the cells of the same nonzero bytes, and a sorted list is determined by its members. -/
theorem canonicalMemoryIsUnique : Obligations.CanonicalMemoryIsUnique := by
  intro m n hm hn h
  have hmem (c : Host.Cell) : c ∈ m ↔ c ∈ n := by rw [Memory.mem_iff_read hm, Memory.mem_iff_read hn, h]
  have : Std.Irrefl fun c d : Host.Cell => c.1 < d.1 := ⟨fun c => Nat.lt_irrefl c.1⟩
  have : Std.Antisymm fun c d : Host.Cell => c.1 < d.1 := ⟨fun _ _ h h' => absurd h' (Nat.lt_asymm h)⟩
  exact hm.1.eq_of_mem_iff hn.1 hmem

/-- Settles O7: the word is the two bytes side by side, and pc + 1 does not wrap below 0xFFFF. -/
theorem fetchIsBigEndian : Obligations.FetchIsBigEndian := by
  intro s
  refine ⟨hiByte_fetchOp s, fun h => ?_⟩
  rw [loByte_fetchOp, Nat.mod_eq_of_lt (by omega)]

end Sys2Proof.Machine
end

section
/-!
PROOFS, the decoder and the encoder (30_encoding.md R41 to R45, R50): the round trips in both directions, the opcode table, and the
step that runs a decoded word.
-/

namespace Sys2Proof.Machine

/-! ## Decode after encode -/

theorem decode_encode (i : Instr) : decode (encode i) = some i := by
  cases i with
  | jump | call => simp only [encode, decode, opF_wordA, opNNN_wordA]
  | skipEqImm | skipNeqImm | loadImm | addImm => simp only [encode, decode, opF_wordI, opX_wordI, opKK_wordI]
  | skipEqReg => simp only [encode, decode, opF_wordR, opX_wordR, opY_wordR, opN_wordR, if_true]
  | loadReg | or | and | xor | addReg | subReg | shiftRight | subnReg | shiftLeft =>
    simp only [encode, decode, decodeFamily8, opF_wordR, opX_wordR, opY_wordR, opN_wordR]

/-- A byte sequence decodes to an instruction exactly when its first two bytes are a word that does, and leaves the rest. -/
theorem decodeBytes_eq_ok {hi lo : Byte} {rest rest' : List Byte} {i : Instr} :
    decodeBytes (hi :: lo :: rest) = .ok (i, rest') ↔ decode (wordOfBytes hi lo) = some i ∧ rest = rest' := by
  rw [decodeBytes_cons]
  cases decode (wordOfBytes hi lo) <;> simp

/-- Settles O2: the fields of a built word are those it was built from. -/
theorem decodeOfEncodeIsTheInstruction : Obligations.DecodeOfEncodeIsTheInstruction :=
  fun i _ => ⟨decode_encode i, decodeBytes_eq_ok.2 ⟨by rw [wordOfBytes_hi_lo, decode_encode], rfl⟩⟩

/-! ## Encode after decode -/

theorem wordA_of_opF {op : Word} {f : Nibble} (h : opF op = f) : wordA f (opNNN op) = op := h ▸ wordA_fields op

theorem wordI_of_opF {op : Word} {f : Nibble} (h : opF op = f) : wordI f (opX op) (opKK op) = op := h ▸ wordI_fields op

theorem wordR_of_opF_opN {op : Word} {f n : Nibble} (hf : opF op = f) (hn : opN op = n) :
    wordR f (opX op) (opY op) n = op := hf ▸ hn ▸ wordR_fields op

theorem encode_of_decodeFamily8 {op : Word} {i : Instr} (hf : opF op = 0x8#4) (h : decodeFamily8 op = some i) :
    encode i = op := by
  unfold decodeFamily8 at h
  split at h
  case h_10 => cases h
  all_goals
    obtain rfl := Option.some.inj h
    exact wordR_of_opF_opN hf ‹_›

/-- Settles O3, branch by branch of the decoder: a word is rebuilt from its fields. -/
theorem encodeOfDecodeIsTheWord : Obligations.EncodeOfDecodeIsTheWord := by
  intro op i h
  unfold decode at h
  split at h
  case h_1 hf | h_2 hf => exact Option.some.inj h ▸ wordA_of_opF hf
  case h_3 hf | h_4 hf | h_6 hf | h_7 hf => exact Option.some.inj h ▸ wordI_of_opF hf
  case h_5 hf =>
    split at h
    · exact Option.some.inj h ▸ wordR_of_opF_opN hf ‹_›
    · cases h
  case h_8 hf => exact encode_of_decodeFamily8 hf h
  case h_9 => cases h

/-! ## The opcode table -/

/-- The word of an instruction lies in its own row of the table and in no other. -/
theorem rowsOf_encode : ∀ i : Instr, rowsOf (encode i) = [i.mnemonic]
  | .jump nnn => Laws.EncodesInRow.jump nnn
  | .call nnn => Laws.EncodesInRow.call nnn
  | .skipEqImm x kk => Laws.EncodesInRow.skipEqImm x kk
  | .skipNeqImm x kk => Laws.EncodesInRow.skipNeqImm x kk
  | .skipEqReg x y => Laws.EncodesInRow.skipEqReg x y
  | .loadImm x kk => Laws.EncodesInRow.loadImm x kk
  | .addImm x kk => Laws.EncodesInRow.addImm x kk
  | .loadReg x y => Laws.EncodesInRow.loadReg x y
  | .or x y => Laws.EncodesInRow.or x y
  | .and x y => Laws.EncodesInRow.and x y
  | .xor x y => Laws.EncodesInRow.xor x y
  | .addReg x y => Laws.EncodesInRow.addReg x y
  | .subReg x y => Laws.EncodesInRow.subReg x y
  | .shiftRight x y => Laws.EncodesInRow.shiftRight x y
  | .subnReg x y => Laws.EncodesInRow.subnReg x y
  | .shiftLeft x y => Laws.EncodesInRow.shiftLeft x y

/-- A word that lies in a row of the table decodes: the decoder has a branch for each row's family and sub-opcode. -/
theorem decode_ne_none_of_mem_rowsOf {op : Word} {m : Mnemonic} (h : m ∈ rowsOf op) : decode op ≠ none := by
  rw [Laws.rowsOf_fields] at h
  obtain ⟨r, hr, -⟩ := List.mem_map.1 h
  obtain ⟨hmem, hop⟩ := List.mem_filter.1 hr
  fin_cases hmem
  all_goals
    simp only [Mnemonic.format, reduceCtorEq, if_true, if_false, opF, opN, BitVec.ofNat_eq_ofNat, BitVec.reduceExtractLsb',
      Bool.and_eq_true, beq_iff_eq] at hop
    simp [decode, decodeFamily8, opF, opN, hop]

/-- Settles O4: a supported word is the word of an instruction, which lies in its own row only, and an unsupported one lies in none. -/
theorem decodeAgreesWithOpcodeTable : Obligations.DecodeAgreesWithOpcodeTable := by
  intro op
  cases h : decode op with
  | some i =>
    rw [← encodeOfDecodeIsTheWord op i h, rowsOf_encode]
    rfl
  | none => exact List.eq_nil_iff_forall_not_mem.2 fun m hm => decode_ne_none_of_mem_rowsOf hm h

/-! ## The step that runs a decoded word -/

theorem decodeTableWord_eq_some {nbits w : Nat} {i : Instr} :
    decodeTableWord nbits w = some i ↔ decode (BitVec.ofNat 16 (w % 2 ^ nbits)) = some i := by
  rw [decodeTableWord, decodeBytes_cons, wordOfBytes_hi_lo]
  cases decode (BitVec.ofNat 16 (w % 2 ^ nbits)) <;> rfl

/-- Settles O9: the fetch reads the placed word back. -/
theorem stepRunsPlacedWord : Obligations.StepRunsPlacedWord := by
  intro s w i hm hpc h
  refine step_of_decode_eq_some ?_
  rw [State.withFetchWord, State.fetchOp_placeWord s hm hpc]
  exact decodeTableWord_eq_some.1 h

/-- Settles O1: the decoder evaluated on the eight words. -/
theorem sampleWordsDecode : Obligations.SampleWordsDecode := by
  unfold Obligations.SampleWordsDecode
  decide

/-- Settles O8: the fetched word is made of the same two bytes. -/
theorem stepExecutesDecodedInstruction : Obligations.StepExecutesDecodedInstruction := by
  intro s i h
  obtain ⟨hd, -⟩ := decodeBytes_eq_ok.1 h
  refine step_of_decode_eq_some ?_
  rwa [fetchOp, State.pcPlus_toNat]

/-- Settles O31: the words are the encodings of the shifts, whose meanings do not name `y`. -/
theorem shiftsIgnoreTheirYField : Obligations.ShiftsIgnoreTheirYField :=
  fun x y _ => ⟨decode_encode (.shiftRight x y), rfl, decode_encode (.shiftLeft x y), rfl⟩

end Sys2Proof.Machine
end

section
/-!
PROOFS, the lines of the notation (30_encoding.md R48, R49): which written operands each format takes, and the word they stand for.
-/

namespace Sys2Proof.Machine

section

variable {m : Mnemonic} {operands : List AsmOperand} {i : Instr} {w : Word}

/-! ## The instruction a line denotes, format by format -/

theorem instr?_formatA (hm : m.format = .A) :
    (AsmLine.ins m operands).instr? = some i ↔ ∃ nnn : Addr, operands = [.num nnn.toNat] ∧ m.instrA? nnn = some i := by
  match operands with
  | [] => simp [AsmLine.instr?]
  | [a] =>
    have h : (AsmLine.ins m [a]).instr? = (a.num? 12).bind m.instrA? := by cases m <;> cases hm <;> rfl
    simp [h, Option.bind_eq_some_iff, AsmOperand.num?_eq_some]
  | [a, b] => simp [AsmLine.instr?, hm]
  | a :: b :: c :: os => simp [AsmLine.instr?]

theorem instr?_formatI (hm : m.format = .I) :
    (AsmLine.ins m operands).instr? = some i ↔
      ∃ (x : RegIdx) (kk : Byte), operands = [.reg x.val, .num kk.toNat] ∧ m.instrI? x kk = some i := by
  match operands with
  | [] => simp [AsmLine.instr?]
  | [a] =>
    have h : (AsmLine.ins m [a]).instr? = none := by cases m <;> cases hm <;> rfl
    simp [h]
  | [a, b] =>
    simp [AsmLine.instr?, hm, Option.bind_eq_some_iff, AsmOperand.num?_eq_some, AsmOperand.reg?_eq_some, and_assoc]
  | a :: b :: c :: os => simp [AsmLine.instr?]

theorem instr?_formatR (hm : m.format = .R) :
    (AsmLine.ins m operands).instr? = some i ↔
      (∃ x y : RegIdx, operands = [.reg x.val, .reg y.val] ∧ m.instrR? x y = some i) ∨
      (m = .shiftRight ∨ m = .shiftLeft) ∧ ∃ x : RegIdx, operands = [.reg x.val] ∧ m.instrR? x 0 = some i := by
  match operands with
  | [] => simp [AsmLine.instr?]
  | [a] =>
    by_cases hs : m = .shiftRight ∨ m = .shiftLeft
    · have h : (AsmLine.ins m [a]).instr? = a.reg?.bind (m.instrR? · 0) := by rcases hs with rfl | rfl <;> rfl
      simp [h, hs, Option.bind_eq_some_iff, AsmOperand.reg?_eq_some]
    · have h : (AsmLine.ins m [a]).instr? = none := by cases m <;> cases hm <;> simp at hs <;> rfl
      simp [h, hs]
  | [a, b] =>
    simp [AsmLine.instr?, hm, Option.bind_eq_some_iff, AsmOperand.reg?_eq_some, and_assoc]
  | a :: b :: c :: os => simp [AsmLine.instr?]

theorem mnemonic_of_instr? (h : (AsmLine.ins m operands).instr? = some i) : i.mnemonic = m := by
  cases hm : m.format with
  | A =>
    obtain ⟨nnn, -, hi⟩ := (instr?_formatA hm).1 h
    cases m <;> cases hm <;> cases hi <;> rfl
  | I =>
    obtain ⟨x, kk, -, hi⟩ := (instr?_formatI hm).1 h
    cases m <;> cases hm <;> cases hi <;> rfl
  | R =>
    obtain ⟨x, y, -, hi⟩ | ⟨-, x, -, hi⟩ := (instr?_formatR hm).1 h
    all_goals cases m <;> cases hm <;> cases hi <;> rfl

/-- The operands of an instruction, written with every field of its format. -/
def writtenOperands : Instr → List AsmOperand
  | .jump nnn | .call nnn => [.num nnn.toNat]
  | .skipEqImm x kk | .skipNeqImm x kk | .loadImm x kk | .addImm x kk => [.reg x.val, .num kk.toNat]
  | .skipEqReg x y | .loadReg x y | .or x y | .and x y | .xor x y | .addReg x y | .subReg x y | .shiftRight x y
  | .subnReg x y | .shiftLeft x y => [.reg x.val, .reg y.val]

/-- Every instruction has a line that denotes it. -/
theorem instr?_writtenOperands (i : Instr) : (AsmLine.ins i.mnemonic (writtenOperands i)).instr? = some i := by
  cases i with
  | jump nnn | call nnn => exact (instr?_formatA rfl).2 ⟨nnn, rfl, rfl⟩
  | skipEqImm x kk | skipNeqImm x kk | loadImm x kk | addImm x kk => exact (instr?_formatI rfl).2 ⟨x, kk, rfl, rfl⟩
  | skipEqReg x y | loadReg x y | or x y | and x y | xor x y | addReg x y | subReg x y | shiftRight x y | subnReg x y
  | shiftLeft x y => exact (instr?_formatR rfl).2 (.inl ⟨x, y, rfl, rfl⟩)

/-! ## The word a line stands for, format by format -/

/-- The family field of every word with this name (R44). -/
def familyOf : Mnemonic → Nibble
  | .jump => 0x1#4
  | .call => 0x2#4
  | .skipEqImm => 0x3#4
  | .skipNeqImm => 0x4#4
  | .skipEqReg => 0x5#4
  | .loadImm => 0x6#4
  | .addImm => 0x7#4
  | .loadReg | .or | .and | .xor | .addReg | .subReg | .shiftRight | .subnReg | .shiftLeft => 0x8#4

/-- The sub-opcode of every word with this name of format `R` (R44). -/
def subOpcodeOf : Mnemonic → Nibble
  | .or => 0x1#4
  | .and => 0x2#4
  | .xor => 0x3#4
  | .addReg => 0x4#4
  | .subReg => 0x5#4
  | .shiftRight => 0x6#4
  | .subnReg => 0x7#4
  | .shiftLeft => 0xE#4
  | .jump | .call | .skipEqImm | .skipNeqImm | .skipEqReg | .loadImm | .addImm | .loadReg => 0x0#4

theorem encode_instrA? (hm : m.format = .A) (nnn : Addr) :
    (m.instrA? nnn).map encode = some (wordA (familyOf m) nnn) := by
  cases m <;> cases hm <;> rfl

theorem encode_instrI? (hm : m.format = .I) (x : RegIdx) (kk : Byte) :
    (m.instrI? x kk).map encode = some (wordI (familyOf m) x kk) := by
  cases m <;> cases hm <;> rfl

theorem encode_instrR? (hm : m.format = .R) (x y : RegIdx) :
    (m.instrR? x y).map encode = some (wordR (familyOf m) x y (subOpcodeOf m)) := by
  cases m <;> cases hm <;> rfl

/-- A line with an instruction name stands for a word exactly if it denotes an instruction with that word. The lemmas per format put
what each format denotes into this and read the word's number off its fields; `grind` there only reorders quantifiers. -/
theorem assemble_eq_some :
    assemble (.ins m operands) = some w ↔ ∃ i, (AsmLine.ins m operands).instr? = some i ∧ encode i = w := by
  rw [assemble_ins, Option.map_eq_some_iff]

theorem assemble_formatA (hm : m.format = .A) :
    assemble (.ins m operands) = some w ↔
      ∃ nnn, operands = [.num nnn] ∧ nnn < 4096 ∧ w.toNat = 0x1000 * (familyOf m).toNat + nnn := by
  have hw (nnn : Addr) : (∃ i, m.instrA? nnn = some i ∧ encode i = w) ↔
      w.toNat = 0x1000 * (familyOf m).toNat + nnn.toNat := by
    rw [← Option.map_eq_some_iff, encode_instrA? hm, Option.some_inj, ← BitVec.toNat_inj, wordA_toNat, eq_comm]
  have h : assemble (.ins m operands) = some w ↔
      ∃ nnn : Addr, operands = [.num nnn.toNat] ∧ ∃ i, m.instrA? nnn = some i ∧ encode i = w := by
    simp only [assemble_eq_some, instr?_formatA hm]
    grind
  simp only [h, hw]
  exact ⟨fun ⟨nnn, hops, hn⟩ => ⟨nnn.toNat, hops, nnn.isLt, hn⟩, fun ⟨n, hops, hlt, hn⟩ => ⟨.ofNatLT n hlt, hops, hn⟩⟩

theorem assemble_formatI (hm : m.format = .I) :
    assemble (.ins m operands) = some w ↔ ∃ x kk, operands = [.reg x, .num kk] ∧ x < 16 ∧ kk < 256 ∧
      w.toNat = 0x1000 * (familyOf m).toNat + 0x100 * x + kk := by
  have hw (x : RegIdx) (kk : Byte) : (∃ i, m.instrI? x kk = some i ∧ encode i = w) ↔
      w.toNat = 0x1000 * (familyOf m).toNat + 0x100 * x.val + kk.toNat := by
    rw [← Option.map_eq_some_iff, encode_instrI? hm, Option.some_inj, ← BitVec.toNat_inj, wordI_toNat, eq_comm]
  have h : assemble (.ins m operands) = some w ↔ ∃ (x : RegIdx) (kk : Byte),
      operands = [.reg x.val, .num kk.toNat] ∧ ∃ i, m.instrI? x kk = some i ∧ encode i = w := by
    simp only [assemble_eq_some, instr?_formatI hm]
    grind
  simp only [h, hw]
  exact ⟨fun ⟨x, kk, hops, hn⟩ => ⟨x.val, kk.toNat, hops, x.isLt, kk.isLt, hn⟩,
    fun ⟨x, k, hops, hx, hk, hn⟩ => ⟨⟨x, hx⟩, .ofNatLT k hk, hops, hn⟩⟩

theorem assemble_formatR (hm : m.format = .R) :
    assemble (.ins m operands) = some w ↔
      (∃ x y, operands = [.reg x, .reg y] ∧ x < 16 ∧ y < 16 ∧
        w.toNat = 0x1000 * (familyOf m).toNat + (subOpcodeOf m).toNat + 0x100 * x + 0x10 * y) ∨
      (m = .shiftRight ∨ m = .shiftLeft) ∧ ∃ x, operands = [.reg x] ∧ x < 16 ∧
        w.toNat = 0x1000 * (familyOf m).toNat + (subOpcodeOf m).toNat + 0x100 * x := by
  have hw (x y : RegIdx) : (∃ i, m.instrR? x y = some i ∧ encode i = w) ↔
      w.toNat = 0x1000 * (familyOf m).toNat + (subOpcodeOf m).toNat + 0x100 * x.val + 0x10 * y.val := by
    rw [← Option.map_eq_some_iff, encode_instrR? hm, Option.some_inj, ← BitVec.toNat_inj, wordR_toNat]
    omega
  have h : assemble (.ins m operands) = some w ↔
      (∃ x y : RegIdx, operands = [.reg x.val, .reg y.val] ∧ ∃ i, m.instrR? x y = some i ∧ encode i = w) ∨
      (m = .shiftRight ∨ m = .shiftLeft) ∧
        ∃ x : RegIdx, operands = [.reg x.val] ∧ ∃ i, m.instrR? x 0 = some i ∧ encode i = w := by
    simp only [assemble_eq_some, instr?_formatR hm]
    grind
  simp only [h, hw]
  refine or_congr ?_ (and_congr_right fun _ => ?_)
  · exact ⟨fun ⟨x, y, hops, hn⟩ => ⟨x.val, y.val, hops, x.isLt, y.isLt, hn⟩,
      fun ⟨x, y, hops, hx, hy, hn⟩ => ⟨⟨x, hx⟩, ⟨y, hy⟩, hops, hn⟩⟩
  · exact ⟨fun ⟨x, hops, hn⟩ => ⟨x.val, hops, x.isLt, hn⟩, fun ⟨x, hops, hx, hn⟩ => ⟨⟨x, hx⟩, hops, hn⟩⟩

theorem assemble_word {k : Nat} : assemble (.word k) = some w ↔ k < 65536 ∧ w.toNat = k := by
  simp only [assemble, Option.ite_none_right_eq_some, Option.some_inj, ← BitVec.toNat_inj, BitVec.toNat_ofNat]
  omega

theorem wf_eq_isSome_assemble (l : AsmLine) : l.wf = (assemble l).isSome := by
  cases l with
  | ins m operands =>
    rw [assemble_ins, Option.isSome_map, AsmLine.wf]
    nofun
  | word n =>
    rw [AsmLine.wf, assemble]
    split
    · exact decide_eq_true ‹_›
    · exact decide_eq_false ‹_›

end

/-- Settles O6, one format after another; a word with a line decodes by `decode_encode`. -/
theorem writtenLinesAssembleToTheirInstruction : Obligations.WrittenLinesAssembleToTheirInstruction := by
  refine ⟨?formatA, ?formatI, ?formatR, ?shifts, fun _ _ => assemble_word, wf_eq_isSome_assemble, ?denotes, ?hasLine⟩
  case formatA =>
    intro p hp operands w
    fin_cases hp <;> exact assemble_formatA rfl
  case formatI =>
    intro p hp operands w
    fin_cases hp <;> exact assemble_formatI rfl
  case formatR =>
    intro p hp operands w
    fin_cases hp <;> exact (assemble_formatR rfl).trans (or_iff_left fun h => absurd h.1 (by decide))
  case shifts =>
    intro p hp operands w
    fin_cases hp <;> exact (assemble_formatR rfl).trans (or_congr_right (and_iff_right (by decide)))
  case denotes =>
    intro m operands w h
    obtain ⟨i, hi, rfl⟩ := assemble_eq_some.1 h
    exact ⟨i, hi, decode_encode i, mnemonic_of_instr? hi⟩
  case hasLine =>
    intro i
    exact ⟨writtenOperands i, instr?_writtenOperands i, assemble_eq_some.2 ⟨i, instr?_writtenOperands i, rfl⟩⟩

end Sys2Proof.Machine
end

section
/-!
PROOFS, control transfer (40_control_transfer.md R52 to R54): the words of JUMP and CALL, a JUMP to itself, and CALLs one after another.
-/

namespace Sys2Proof.Machine

/-! ## The words of JUMP and CALL -/

/-- A word decodes to an instruction exactly when it is that instruction's word. -/
theorem decode_eq_some_iff {op : Word} {i : Instr} : decode op = some i ↔ encode i = op :=
  ⟨encodeOfDecodeIsTheWord op i, fun h => h ▸ decode_encode i⟩

theorem wordA_eq_iff {op : Word} {f : Nibble} {nnn : Addr} : wordA f nnn = op ↔ opF op = f ∧ opNNN op = nnn := by
  constructor
  · rintro rfl
    exact ⟨opF_wordA f nnn, opNNN_wordA f nnn⟩
  · rintro ⟨rfl, rfl⟩
    exact wordA_fields op

theorem decode_eq_some_jump {op : Word} {nnn : Addr} : decode op = some (.jump nnn) ↔ opF op = 0x1#4 ∧ opNNN op = nnn :=
  decode_eq_some_iff.trans wordA_eq_iff

theorem decode_eq_some_call {op : Word} {nnn : Addr} : decode op = some (.call nnn) ↔ opF op = 0x2#4 ∧ opNNN op = nnn :=
  decode_eq_some_iff.trans wordA_eq_iff

/-! ## Frames and runs -/

/-- A change of pc keeps everything else. -/
theorem keepsAllBut_pc (rs : List RegIdx) (s : State) (w : Word) : KeepsAllBut rs s { s with pc := w } :=
  ⟨fun _ _ => rfl, rfl, fun _ => rfl, rfl, rfl, rfl, fun _ => rfl⟩

/-- A target equal to the pc as a number is the pc. -/
theorem targetOf_eq_of_toNat_eq {nnn : Addr} {w : Word} (h : nnn.toNat = w.toNat) : targetOf nnn = w :=
  BitVec.eq_of_toNat_eq ((targetOf_toNat nnn).trans h)

/-- From a state that steps to itself no other state is reached. -/
theorem eq_of_reaches_of_step_self {s t : State} (hs : step s = .next s) (h : Reaches s t) : t = s := by
  induction h with
  | launch => rfl
  | step _ hstep ih =>
    rw [ih, hs] at hstep
    exact (Host.Outcome.next.inj hstep).symm

theorem hangs_of_step_self {s : State} (hs : step s = .next s) : Hangs s :=
  fun _ h => ⟨s, eq_of_reaches_of_step_self hs h ▸ hs⟩

/-! ## Instructions one after another -/

theorem execAll_cons_of_next {i : Instr} {s t : State} (h : exec i s = .next t) (is : List Instr) :
    execAll (i :: is) s = execAll is t := by
  rw [execAll, h]

theorem execAll_cons_of_fault {i : Instr} {s : State} {e : Fault} (h : exec i s = .fault e) (is : List Instr) :
    execAll (i :: is) s = .fault e := by
  rw [execAll, h]

/-- Instructions after a list that completes run from its last state. -/
theorem execAll_append_of_next {is : List Instr} {s t : State} (h : execAll is s = .next t) (js : List Instr) :
    execAll (is ++ js) s = execAll js t := by
  induction is generalizing s with
  | nil => rw [← Host.Outcome.next.inj h, List.nil_append]
  | cons i is ih =>
    cases hi : exec i s with
    | next u =>
      rw [execAll_cons_of_next hi] at h
      rw [List.cons_append, execAll_cons_of_next hi, ih h]
    | fault | refused =>
      rw [execAll, hi] at h
      cases h

/-! ## The statements -/

/-- Settles O12. -/
theorem jumpSetsPcToTarget : Obligations.JumpSetsPcToTarget :=
  fun nnn s => ⟨fun _ => decode_eq_some_jump, _, execJump_eq s nnn, targetOf_toNat nnn, keepsAllBut_pc [] s (targetOf nnn)⟩

/-- Settles O13: the JUMP writes the pc that stands there, so the step leads to the same state again. -/
theorem jumpToItselfHangs : Obligations.JumpToItselfHangs := by
  intro nnn s hd hpc
  have hs : step s = .next s := by
    rw [step_of_decode_eq_some hd, exec, execJump_eq, targetOf_eq_of_toNat_eq hpc]
  exact ⟨hs, hangs_of_step_self hs⟩

/-- Settles O14, by the state a CALL with a free entry leads to. -/
theorem callPushesItsAddressAndJumps : Obligations.CallPushesItsAddressAndJumps := by
  intro nnn s
  refine ⟨fun _ => decode_eq_some_call, fun h => ⟨_, execCall_of_lt s nnn h, ?pushed, fun j hj => ?others, rfl,
    targetOf_toNat nnn, fun _ => rfl, rfl, rfl, rfl, fun _ => rfl⟩⟩
  case pushed => exact s.stackAt_setStack_self ⟨s.sp.val, h⟩ s.pc
  case others => exact s.stackAt_setStack_ne (Fin.ne_of_val_ne hj) s.pc

/-- CALLs for which there are free entries complete, each raising `sp` by one, and keep the entries below the first `sp`. -/
theorem execAll_calls (targets : List Addr) {s : State} (h : targets.length + s.sp.val ≤ 16) :
    ∃ t, execAll (targets.map .call) s = .next t ∧ t.sp.val = targets.length + s.sp.val ∧
      ∀ j : Fin 16, j.val < s.sp.val → t.stackAt j = s.stackAt j := by
  induction targets generalizing s with
  | nil => exact ⟨s, rfl, (Nat.zero_add _).symm, fun _ _ => rfl⟩
  | cons nnn targets ih =>
    rw [List.length_cons] at h ⊢
    obtain ⟨-, hcall⟩ := callPushesItsAddressAndJumps nnn s
    obtain ⟨u, hu, -, hother, husp, -⟩ := hcall (by omega)
    obtain ⟨t, ht, htsp, hbelow⟩ := ih (s := u) (by omega)
    refine ⟨t, ?_, by omega, fun j hj => ?_⟩
    · rw [List.map_cons, execAll_cons_of_next hu, ht]
    · rw [hbelow j (by omega), hother j (Nat.ne_of_lt hj)]

/-- Settles O16: the CALLs complete with a full stack, on which one more overflows. -/
theorem callsFillTheStackThenOverflow : Obligations.CallsFillTheStackThenOverflow := by
  intro targets last s h
  obtain ⟨t, ht, hsp, hbelow⟩ := execAll_calls targets h.le
  have hfull : t.sp.val = Config.stackDepth := hsp.trans h
  refine ⟨⟨t, ht, hfull, hbelow⟩, ?_⟩
  rw [execAll_append_of_next ht]
  exact execAll_cons_of_fault (i := .call last) (execCall_of_full t last hfull) []

end Sys2Proof.Machine
end

section
/-!
PROOFS, the conditional skips (41_conditional_skip.md R55 to R57): their words, and what a skip does for any condition.
-/

namespace Sys2Proof.Machine

/-! ## The words of the formats I and R -/

theorem wordI_eq_iff {op : Word} {f : Nibble} {x : RegIdx} {kk : Byte} :
    wordI f x kk = op ↔ opF op = f ∧ opX op = x ∧ opKK op = kk := by
  constructor
  · rintro rfl
    exact ⟨opF_wordI f x kk, opX_wordI f x kk, opKK_wordI f x kk⟩
  · rintro ⟨rfl, rfl, rfl⟩
    exact wordI_fields op

theorem wordR_eq_iff {op : Word} {f n : Nibble} {x y : RegIdx} :
    wordR f x y n = op ↔ opF op = f ∧ opX op = x ∧ opY op = y ∧ opN op = n := by
  constructor
  · rintro rfl
    exact ⟨opF_wordR f x y n, opX_wordR f x y n, opY_wordR f x y n, opN_wordR f x y n⟩
  · rintro ⟨rfl, rfl, rfl, rfl⟩
    exact wordR_fields op

theorem decode_eq_some_skipEqImm {op : Word} {x : RegIdx} {kk : Byte} :
    decode op = some (.skipEqImm x kk) ↔ opF op = 0x3#4 ∧ opX op = x ∧ opKK op = kk :=
  decode_eq_some_iff.trans wordI_eq_iff

theorem decode_eq_some_skipNeqImm {op : Word} {x : RegIdx} {kk : Byte} :
    decode op = some (.skipNeqImm x kk) ↔ opF op = 0x4#4 ∧ opX op = x ∧ opKK op = kk :=
  decode_eq_some_iff.trans wordI_eq_iff

theorem decode_eq_some_skipEqReg {op : Word} {x y : RegIdx} :
    decode op = some (.skipEqReg x y) ↔ opF op = 0x5#4 ∧ opX op = x ∧ opY op = y ∧ opN op = 0x0#4 :=
  decode_eq_some_iff.trans wordR_eq_iff

/-- Family 5 has no instruction but the one of sub-opcode 0 (R46). -/
theorem decode_of_opF_eq_five {op : Word} (hf : opF op = 0x5#4) (hn : opN op ≠ 0x0#4) : decode op = none := by
  simp [decode, hf, hn]

/-! ## What a skip does -/

/-- A skip completes; it advances pc by 4 if its condition holds and by 2 if not, and keeps everything else. -/
theorem skipIf_completes (c : Bool) (s : State) :
    ∃ t, skipIf c s = .next t ∧ PcAdvances (if c then 4 else 2) s t ∧ KeepsAllBut [] s t := by
  refine ⟨_, skipIf_eq s c, ?_, keepsAllBut_pc [] s _⟩
  cases c with
  | true => exact s.pcPlus_toNat 4
  | false => exact s.pcPlus_toNat 2

/-- The test of a skip for equal values, as numbers. -/
theorem ite_beq_eq_ite_toNat (a b : Byte) (m n : Nat) : (if a == b then m else n) = if a.toNat = b.toNat then m else n := by
  simp only [beq_iff_eq, BitVec.toNat_inj]

/-- The test of a skip for different values, as numbers. -/
theorem ite_bne_eq_ite_toNat (a b : Byte) (m n : Nat) : (if a != b then m else n) = if a.toNat = b.toNat then n else m := by
  simp only [bne_iff_ne, ne_eq, ite_not, BitVec.toNat_inj]

/-! ## The statements -/

/-- Settles O17: a skip on the equality of `V[x]` and the byte. -/
theorem skipEqImmSkipsOnEqual : Obligations.SkipEqImmSkipsOnEqual := by
  intro x kk s
  have h := skipIf_completes (s.reg x == kk) s
  rw [ite_beq_eq_ite_toNat] at h
  exact ⟨fun _ => decode_eq_some_skipEqImm, h⟩

/-- Settles O18: a skip on the difference of `V[x]` and the byte. -/
theorem skipNeqImmSkipsOnDifferent : Obligations.SkipNeqImmSkipsOnDifferent := by
  intro x kk s
  have h := skipIf_completes (s.reg x != kk) s
  rw [ite_bne_eq_ite_toNat] at h
  exact ⟨fun _ => decode_eq_some_skipNeqImm, h⟩

/-- Settles O19: a skip on the equality of both registers; a word of family 5 with another sub-opcode does not decode. -/
theorem skipEqRegSkipsOnEqual : Obligations.SkipEqRegSkipsOnEqual := by
  intro x y s
  have h := skipIf_completes (s.reg x == s.reg y) s
  rw [ite_beq_eq_ite_toNat] at h
  exact ⟨fun _ => decode_eq_some_skipEqReg, fun hf hn => step_of_decode_eq_none (decode_of_opF_eq_five hf hn), h⟩

end Sys2Proof.Machine
end

section
/-!
PROOFS, immediate loads and adds (42_immediate.md R58 and R59): their words, and what the writes of an instruction without a flag do
for any result.
-/

namespace Sys2Proof.Machine

/-! ## The words of LOAD_IMM and ADD_IMM -/

theorem decode_eq_some_loadImm {op : Word} {x : RegIdx} {kk : Byte} :
    decode op = some (.loadImm x kk) ↔ opF op = 0x6#4 ∧ opX op = x ∧ opKK op = kk :=
  decode_eq_some_iff.trans wordI_eq_iff

theorem decode_eq_some_addImm {op : Word} {x : RegIdx} {kk : Byte} :
    decode op = some (.addImm x kk) ↔ opF op = 0x7#4 ∧ opX op = x ∧ opKK op = kk :=
  decode_eq_some_iff.trans wordI_eq_iff

/-! ## What an instruction without a flag does -/

theorem State.pcAdvances_commit_plainWrites (s : State) (x : RegIdx) (r : Byte) :
    PcAdvances 2 s (s.commit (plainWrites s x r)) :=
  s.pcPlus_toNat 2

theorem State.reg_commit_plainWrites_self (s : State) (x : RegIdx) (r : Byte) : (s.commit (plainWrites s x r)).reg x = r := by
  rw [State.reg_commit_plainWrites, if_pos rfl]

/-- An instruction without a flag keeps everything but its destination and pc; VF is a register like the others here. -/
theorem State.keepsAllBut_commit_plainWrites (s : State) (x : RegIdx) (r : Byte) :
    KeepsAllBut [x] s (s.commit (plainWrites s x r)) :=
  ⟨fun _ hq => s.reg_commit_of_not_mem hq, rfl, fun _ => rfl, rfl, rfl, rfl, fun _ => rfl⟩

theorem addResult_toNat (a b : Byte) : (addResult a b).toNat = (a.toNat + b.toNat) % 256 := by
  rw [addResult_eq, BitVec.toNat_add]

/-! ## The statements -/

/-- Settles O20: the result of the plain writes is the byte. -/
theorem loadImmWritesTheByte : Obligations.LoadImmWritesTheByte :=
  fun x kk s => ⟨fun _ => decode_eq_some_loadImm, _, rfl, s.reg_commit_plainWrites_self x kk,
    s.pcAdvances_commit_plainWrites x kk, s.keepsAllBut_commit_plainWrites x kk⟩

/-- Settles O21: the result of the plain writes is the wrapped sum, and no other register is written. -/
theorem addImmWrapsWithoutFlag : Obligations.AddImmWrapsWithoutFlag := by
  intro x kk s
  refine ⟨fun _ => decode_eq_some_addImm, _, rfl, ?sum, s.pcAdvances_commit_plainWrites x _, s.keepsAllBut_commit_plainWrites x _⟩
  case sum => rw [s.reg_commit_plainWrites_self x, addResult_toNat]

end Sys2Proof.Machine
end

section
/-!
PROOFS, the register-register operations (43_register_alu.md R60 to R70): their words, the values they compute as numbers, and what
the writes of an instruction do for any result and any flag.
-/

namespace Sys2Proof.Machine

/-! ## The words of format R -/

/-- The words of an instruction whose encoding is of format R, field by field. -/
theorem decode_eq_some_of_encode_eq_wordR {i : Instr} {f n : Nibble} {x y : RegIdx} (h : encode i = wordR f x y n) {op : Word} :
    decode op = some i ↔ opF op = f ∧ opX op = x ∧ opY op = y ∧ opN op = n := by
  rw [decode_eq_some_iff, h, wordR_eq_iff]

/-! ## The flags and results as numbers (R60) -/

theorem flagByte_decide_toNat (p : Prop) [Decidable p] : (flagByte (decide p)).toNat = if p then 1 else 0 := by
  by_cases hp : p <;> simp [flagByte, hp]

theorem carryFlag_toNat (a b : Byte) : (carryFlag a b).toNat = if a.toNat + b.toNat > 255 then 1 else 0 :=
  flagByte_decide_toNat _

theorem notBorrowFlag_toNat (a b : Byte) : (notBorrowFlag a b).toNat = if a.toNat ≥ b.toNat then 1 else 0 :=
  flagByte_decide_toNat _

theorem subResult_toNat (a b : Byte) : (subResult a b).toNat = (a.toNat + 256 - b.toNat) % 256 := by
  rw [subResult_eq, BitVec.toNat_sub]
  omega

theorem shiftRightResult_toNat (a : Byte) : (shiftRightResult a).toNat = a.toNat / 2 := by
  rw [shiftRightResult, BitVec.toNat_ushiftRight, Nat.shiftRight_eq_div_pow, Nat.pow_one]

theorem shiftLeftResult_toNat (a : Byte) : (shiftLeftResult a).toNat = (2 * a.toNat) % 256 := by
  rw [shiftLeftResult, BitVec.toNat_shiftLeft, Nat.shiftLeft_eq, Nat.pow_one, Nat.mul_comm]

/-- A byte masked with 0x01 is its bit 0. -/
theorem and_one_toNat (a : Byte) : (a &&& 0x01#8).toNat = a.toNat % 2 := by
  rw [BitVec.toNat_and]
  exact Nat.and_one_is_mod a.toNat

theorem shiftedOutRight_toNat (a : Byte) : (shiftedOutRight a).toNat = a.toNat % 2 := and_one_toNat a

theorem shiftedOutLeft_toNat (a : Byte) : (shiftedOutLeft a).toNat = a.toNat / 128 := by
  rw [shiftedOutLeft, and_one_toNat, BitVec.toNat_ushiftRight, Nat.shiftRight_eq_div_pow]
  omega

/-! ## What an instruction does, by the form of its writes -/

/-- A flag-defining instruction keeps everything but its destination, VF and pc. -/
theorem State.keepsAllBut_commit_flaggedWrites (s : State) (x : RegIdx) (f r : Byte) :
    KeepsAllBut [x, 15] s (s.commit (flaggedWrites s x f r)) := by
  refine ⟨fun q hq => ?others, rfl, fun _ => rfl, rfl, rfl, rfl, fun _ => rfl⟩
  case others => exact s.reg_commit_of_not_mem fun h => hq (List.mem_pair.2 (List.mem_pair.1 h).symm)

section

variable {i : Instr} {s : State} {x : RegIdx} {f r : Byte}

/-- An instruction without a flag completes with each bit of its result in `V[x]`. -/
theorem plain_completes_bitwise {bit : Nat → Bool} (he : exec i s = .next (s.commit (plainWrites s x r)))
    (hr : ∀ k, r.getLsbD k = bit k) :
    ∃ t, exec i s = .next t ∧ (∀ k, (t.reg x).getLsbD k = bit k) ∧ PcAdvances 2 s t ∧ KeepsAllBut [x] s t :=
  ⟨_, he, fun k => by rw [s.reg_commit_plainWrites_self x, hr],
    s.pcAdvances_commit_plainWrites x r, s.keepsAllBut_commit_plainWrites x r⟩

/-- A flag-defining instruction completes with its result in `V[x]`, and its flag in VF unless VF is the destination: there the
result, written second, remains (D4, log 5). -/
theorem flagged_completes {result flag : Nat} (he : exec i s = .next (s.commit (flaggedWrites s x f r)))
    (hr : r.toNat = result) (hf : f.toNat = flag) :
    ∃ t, exec i s = .next t ∧ (t.reg x).toNat = result ∧ (x ≠ 15 → (t.reg 15).toNat = flag) ∧
      PcAdvances 2 s t ∧ KeepsAllBut [x, 15] s t := by
  refine ⟨_, he, ?result, fun hx => ?flag, s.pcPlus_toNat 2, s.keepsAllBut_commit_flaggedWrites x f r⟩
  case result => rw [State.reg_commit_flaggedWrites, if_pos rfl, hr]
  case flag => rw [State.reg_commit_flaggedWrites, if_neg hx.symm, if_pos rfl, hf]

end

/-- The old value of a register that an instruction writes and does not read is lost. -/
theorem exec_setReg_of_overwritten {i : Instr} {r : RegIdx} (hr : r ∉ i.reads) (hw : r ∈ i.writes) (s : State) (b : Byte) :
    exec i (s.setReg r b) = exec i s := by
  rw [instructionsReadOnlyTheirRegisters i s r b hr]
  simp only [hw, if_true]
  cases exec i s <;> rfl

/-! ## The statements -/

/-- Settles O22: the result of the plain writes is the old `V[y]`. -/
theorem loadRegCopies : Obligations.LoadRegCopies :=
  fun x y s => ⟨fun _ => decode_eq_some_of_encode_eq_wordR rfl, _, rfl, s.reg_commit_plainWrites_self x (s.reg y),
    s.pcAdvances_commit_plainWrites x _, s.keepsAllBut_commit_plainWrites x _⟩

/-- Settles O23. -/
theorem orIsBitwiseWithoutFlag : Obligations.OrIsBitwiseWithoutFlag :=
  fun _ _ _ => ⟨fun _ => decode_eq_some_of_encode_eq_wordR rfl, plain_completes_bitwise rfl fun _ => BitVec.getLsbD_or⟩

/-- Settles O24. -/
theorem andIsBitwiseWithoutFlag : Obligations.AndIsBitwiseWithoutFlag :=
  fun _ _ _ => ⟨fun _ => decode_eq_some_of_encode_eq_wordR rfl, plain_completes_bitwise rfl fun _ => BitVec.getLsbD_and⟩

/-- Settles O25. -/
theorem xorIsBitwiseWithoutFlag : Obligations.XorIsBitwiseWithoutFlag :=
  fun _ _ _ => ⟨fun _ => decode_eq_some_of_encode_eq_wordR rfl, plain_completes_bitwise rfl fun _ => BitVec.getLsbD_xor⟩

/-- Settles O26: the flagged writes of the wrapped sum and its carry. -/
theorem addRegSumAndCarry : Obligations.AddRegSumAndCarry :=
  fun x y s => ⟨fun _ => decode_eq_some_of_encode_eq_wordR rfl,
    flagged_completes rfl (addResult_toNat (s.reg x) (s.reg y)) (carryFlag_toNat (s.reg x) (s.reg y))⟩

/-- Settles O27: the flagged writes of the wrapped difference and its NOT-borrow. -/
theorem subRegDifferenceAndNotBorrow : Obligations.SubRegDifferenceAndNotBorrow :=
  fun x y s => ⟨fun _ => decode_eq_some_of_encode_eq_wordR rfl,
    flagged_completes rfl (subResult_toNat (s.reg x) (s.reg y)) (notBorrowFlag_toNat (s.reg x) (s.reg y))⟩

/-- Settles O28: the flagged writes of the half and the bit shifted out. -/
theorem shiftRightHalvesAndKeepsBit0 : Obligations.ShiftRightHalvesAndKeepsBit0 :=
  fun x _ s => ⟨fun _ => decode_eq_some_of_encode_eq_wordR rfl,
    flagged_completes rfl (shiftRightResult_toNat (s.reg x)) (shiftedOutRight_toNat (s.reg x))⟩

/-- Settles O29: as SUB_REG, with the operands exchanged. -/
theorem subnRegReversedDifferenceAndNotBorrow : Obligations.SubnRegReversedDifferenceAndNotBorrow :=
  fun x y s => ⟨fun _ => decode_eq_some_of_encode_eq_wordR rfl,
    flagged_completes rfl (subResult_toNat (s.reg y) (s.reg x)) (notBorrowFlag_toNat (s.reg y) (s.reg x))⟩

/-- Settles O30: the flagged writes of the wrapped double and the bit shifted out. -/
theorem shiftLeftDoublesAndKeepsBit7 : Obligations.ShiftLeftDoublesAndKeepsBit7 :=
  fun x _ s => ⟨fun _ => decode_eq_some_of_encode_eq_wordR rfl,
    flagged_completes rfl (shiftLeftResult_toNat (s.reg x)) (shiftedOutLeft_toNat (s.reg x))⟩

/-- Settles O32: each of the five reads at most `V[x]` and `V[y]`, and writes VF. -/
theorem flagInstructionsClobberVF : Obligations.FlagInstructionsClobberVF := by
  intro x y s b hx hy i hi
  obtain ⟨hreads, hwrites⟩ : 15 ∉ i.reads ∧ 15 ∈ i.writes := by
    simp only [List.mem_cons, List.not_mem_nil, or_false] at hi
    rcases hi with rfl | rfl | rfl | rfl | rfl <;> exact ⟨by simp [Instr.reads, hx.symm, hy.symm], List.mem_cons_self⟩
  exact exec_setReg_of_overwritten hreads hwrites s b

end Sys2Proof.Machine
end

section
/-!
PROOFS, the errors of a step (60_exceptions.md R71 to R80): which words are unsupported and how many, when an instruction or a step
fails, and what the host is told of it.
-/

namespace Sys2Proof.Machine

/-! ## The unsupported words -/

/-- Whether R46 lists a word with family `f` and sub-opcode `n`. -/
def unsupportedFields (f n : Nibble) : Bool :=
  f = 0x0#4 ∨ 9 ≤ f.toNat ∨ (f = 0x5#4 ∧ n ≠ 0x0#4) ∨
    (f = 0x8#4 ∧ n ∈ [0x8#4, 0x9#4, 0xA#4, 0xB#4, 0xC#4, 0xD#4, 0xF#4])

theorem isNone_decodeFamily8 {op : Word} (hf : opF op = 0x8#4) :
    (decodeFamily8 op).isNone = unsupportedFields (opF op) (opN op) := by
  rw [hf]
  unfold decodeFamily8
  split
  case h_10 =>
    generalize opN op = n at *
    decide +revert
  all_goals
    rename_i hn
    rw [hn]
    rfl

/-- The decoder rejects exactly the words that R46 lists. -/
theorem isNone_decode (op : Word) : (decode op).isNone = unsupportedFields (opF op) (opN op) := by
  unfold decode
  split
  case h_5 hf => by_cases hn : opN op = 0x0#4 <;> simp [hf, hn, unsupportedFields]
  case h_8 hf => exact isNone_decodeFamily8 hf
  case h_9 =>
    generalize opF op = f at *
    generalize opN op = n at *
    decide +revert
  all_goals
    rename_i hf
    rw [hf]
    simp [unsupportedFields]

/-! ## Their number -/

/-- Counting below `m * k` by quotient and remainder. -/
theorem countP_range_mul (q : Nat → Nat → Bool) (m k : Nat) :
    (List.range (m * k)).countP (fun n => q (n / k) (n % k)) = ((List.range m).map fun i => (List.range k).countP (q i)).sum := by
  induction m with
  | zero => simp
  | succ m ih =>
    have hblock : (List.range k).countP (fun j => q ((m * k + j) / k) ((m * k + j) % k)) = (List.range k).countP (q m) :=
      List.countP_congr fun j hj => by
        have hj := List.mem_range.1 hj
        rw [Nat.mul_comm, Nat.mul_add_div (by omega), Nat.mul_add_mod, Nat.div_eq_of_lt hj, Nat.mod_eq_of_lt hj, Nat.add_zero]
    rw [Nat.succ_mul, List.range_add, List.countP_append, ih, List.countP_map, Function.comp_def, hblock, List.range_succ,
      List.map_append, List.sum_append, List.map_singleton, List.sum_singleton]

theorem opF_ofNat (n : Nat) : opF (BitVec.ofNat 16 n) = BitVec.ofNat 4 (n / 4096) := by
  apply BitVec.eq_of_toNat_eq
  simp only [opF, BitVec.extractLsb'_toNat, BitVec.toNat_ofNat, Nat.shiftRight_eq_div_pow]
  omega

theorem opN_ofNat (n : Nat) : opN (BitVec.ofNat 16 n) = BitVec.ofNat 4 (n % 4096 % 16) := by
  apply BitVec.eq_of_toNat_eq
  simp only [opN, BitVec.extractLsb'_toNat, BitVec.toNat_ofNat, Nat.shiftRight_eq_div_pow]
  omega

/-- Each family and sub-opcode is that of 256 words: counting words by these fields is counting the pairs. -/
theorem countP_words_by_fields (u : Nibble → Nibble → Bool) :
    (List.range 65536).countP (fun n => u (opF (BitVec.ofNat 16 n)) (opN (BitVec.ofNat 16 n))) =
      ((List.range 16).map fun f => 256 * (List.range 16).countP fun n => u (BitVec.ofNat 4 f) (BitVec.ofNat 4 n)).sum := by
  have hfamily (f : Nat) : (List.range 4096).countP (fun j => u (BitVec.ofNat 4 f) (BitVec.ofNat 4 (j % 16))) =
      256 * (List.range 16).countP fun n => u (BitVec.ofNat 4 f) (BitVec.ofNat 4 n) := by
    rw [countP_range_mul (fun _ n => u (BitVec.ofNat 4 f) (BitVec.ofNat 4 n)) 256 16, List.map_const', List.sum_replicate,
      List.length_range, smul_eq_mul]
  simp only [opF_ofNat, opN_ofNat]
  rw [countP_range_mul (fun f j => u (BitVec.ofNat 4 f) (BitVec.ofNat 4 (j % 16))) 16 4096]
  simp only [hfamily]

/-! ## When an instruction fails -/

/-- An instruction completes, unless it is a CALL with a full stack. -/
theorem exec_completes_or_overflows (i : Instr) (s : State) :
    (∃ t, exec i s = .next t) ∨ exec i s = .fault .stackOverflow ∧ (∃ nnn, i = .call nnn) ∧ s.sp.val = 16 := by
  cases i with
  | call nnn =>
    by_cases h : s.sp.val < Config.stackDepth
    · exact .inl ⟨_, execCall_of_lt s nnn h⟩
    · have hfull : s.sp.val = 16 := Nat.le_antisymm (Nat.le_of_lt_succ s.sp.isLt) (Nat.le_of_not_lt h)
      exact .inr ⟨execCall_of_full s nnn hfull, ⟨nnn, rfl⟩, hfull⟩
  | jump | skipEqImm | skipNeqImm | skipEqReg | loadImm | addImm | loadReg | or | and | xor | addReg | subReg | shiftRight
  | subnReg | shiftLeft => exact .inl ⟨_, rfl⟩

/-- The only error of an instruction is the StackOverflow of a CALL with a full stack. -/
theorem exec_eq_fault_iff {i : Instr} {s : State} {e : Fault} :
    exec i s = .fault e ↔ e = .stackOverflow ∧ (∃ nnn, i = .call nnn) ∧ s.sp.val = 16 := by
  constructor
  · intro h
    obtain ⟨t, ht⟩ | ⟨hover, hcall⟩ := exec_completes_or_overflows i s
    · cases h.symm.trans ht
    · exact ⟨Host.Outcome.fault.inj (h.symm.trans hover), hcall⟩
  · rintro ⟨rfl, ⟨nnn, rfl⟩, hfull⟩
    exact execCall_of_full s nnn hfull

/-! ## When a step fails, and its outcomes -/

theorem step_eq_stackOverflow_iff {s : State} :
    step s = .fault .stackOverflow ↔ (∃ nnn, decode (fetchOp s) = some (.call nnn)) ∧ s.sp.val = 16 := by
  cases hd : decode (fetchOp s) with
  | none => simp [step_of_decode_eq_none hd]
  | some i => simp [step_of_decode_eq_some hd, exec_eq_fault_iff]

theorem step_eq_unknownInstruction_iff {s : State} {op : Word} :
    step s = .fault (.unknownInstruction op) ↔ fetchOp s = op ∧ decode op = none := by
  constructor
  · intro h
    cases hd : decode (fetchOp s) with
    | none =>
      rw [step_of_decode_eq_none hd] at h
      cases h
      exact ⟨rfl, hd⟩
    | some i =>
      rw [step_of_decode_eq_some hd, exec_eq_fault_iff] at h
      cases h.1
  · rintro ⟨rfl, hd⟩
    exact step_of_decode_eq_none hd

/-- The three outcomes of a step (R71); a refusal is none of them. -/
theorem step_outcomes (s : State) :
    step s = .fault .stackOverflow ∨ step s = .fault (.unknownInstruction (fetchOp s)) ∨ ∃ t, step s = .next t := by
  cases hd : decode (fetchOp s) with
  | none => exact .inr (.inl (step_of_decode_eq_none hd))
  | some i =>
    rw [step_of_decode_eq_some hd]
    obtain hnext | ⟨hover, -⟩ := exec_completes_or_overflows i s
    · exact .inr (.inr hnext)
    · exact .inl hover

/-! ## The statements -/

/-- Settles O5: the decoder tests the family and the sub-opcode, and the count goes over their 256 pairs. -/
theorem unsupportedWordsRaiseUnknownInstruction : Obligations.UnsupportedWordsRaiseUnknownInstruction := by
  refine ⟨fun op => ?classes, ?number, fun _ _ => step_eq_unknownInstruction_iff⟩
  case classes => rw [← Option.isNone_iff_eq_none, isNone_decode, unsupportedFields, decide_eq_true_iff]
  case number =>
    simp only [isNone_decode]
    rw [countP_words_by_fields]
    decide

/-- Settles O11: a fetch at such a pc reads 0x00 as its first byte, so the word is of family 0. -/
theorem accessBeyondMemoryIsNoError : Obligations.AccessBeyondMemoryIsNoError := by
  refine fun s => ⟨fun a b ha => ⟨s.mem.read_of_ge ha, hostMemWrite_of_ge ha b s⟩, fun hpc => ?_⟩
  have hf := opF_fetchOp_of_pc_ge hpc
  exact ⟨hf, step_of_decode_eq_none (decode_of_opF_eq_zero hf)⟩

/-- Settles O15: no other instruction has an error, and the failed STEP keeps pc. -/
theorem onlyCallOnFullStackOverflows : Obligations.OnlyCallOnFullStackOverflows := by
  refine ⟨fun i s => exec_eq_fault_iff.trans (and_iff_right rfl), fun s h => ?_⟩
  rw [hostStep_of_fault h]
  exact ⟨rfl, rfl⟩

/-- Settles O40. -/
theorem stepOutcomesAreExactlyThree : Obligations.StepOutcomesAreExactlyThree :=
  fun s => ⟨step_eq_stackOverflow_iff, step_eq_unknownInstruction_iff.trans (and_iff_right rfl), step_outcomes s⟩

/-- Settles O43: each of the three outcomes has its own code. -/
theorem stepResultEncoding : Obligations.StepResultEncoding := by
  intro s
  obtain h | h | ⟨t, h⟩ := step_outcomes s
  · simp [hostStep_of_fault h, h, StepResult.ofOutcome]
  · simp [hostStep_of_fault h, h, StepResult.ofOutcome]
  · simp [hostStep_of_next h, h]

/-- Settles O41. -/
theorem failedStepChangesNothing : Obligations.FailedStepChangesNothing :=
  fun _ _ h => congrArg Prod.fst (hostStep_of_fault h)

/-- Settles O42: the second STEP begins in the state of the first. -/
theorem restepGivesTheSameError : Obligations.RestepGivesTheSameError :=
  fun s e h => congrArg hostStep (failedStepChangesNothing s e h)

end Sys2Proof.Machine
end

section
/-!
PROOFS, reset, boot and runs (70_reset_and_hazards.md R86 to R93): what the state after RESET and after the boot sequence reads, what a
host write does to the next fetch, and what a run keeps and where it ends.
-/

namespace Sys2Proof.Machine

/-! ## Boot -/

/-- After boot the image reads back from ENTRY on, and everything else is zero (R88). -/
theorem readByte_boot (image : List Byte) (s : State) (a : Nat) :
    (boot image s).readByte a = if 0x0200 ≤ a ∧ a < 4096 then image.getD (a - 0x0200) 0x00#8 else 0x00#8 := by
  have h := hostMemRead_hostLoad State.reset_mem_wf 0x0200 a image
  rwa [show hostMemRead a State.reset = 0x00#8 from State.reset_readByte a] at h

/-! ## A host write and the next fetch -/

/-- A host write inside memory changes what is read at its own address only. -/
theorem readByte_hostMemWrite_of_lt {s : State} (hm : s.mem.wf) {a : Nat} (ha : a < Config.memSize) (b : Byte) (c : Nat) :
    (hostMemWrite a b s).readByte c = if a = c then b else s.readByte c := by
  simpa only [hostMemRead, ha, and_true, eq_comm (a := c)] using hostMemRead_hostMemWrite hm a c b

/-! ## What a run keeps -/

section

variable {s t u : State}

/-- No step of a run changes memory, the index register or a timer. -/
theorem Reaches.keeps_memory_and_timers (h : Reaches s t) : t.mem = s.mem ∧ t.i = s.i ∧ t.dt = s.dt ∧ t.st = s.st := by
  induction h with
  | launch => exact ⟨rfl, rfl, rfl, rfl⟩
  | step _ hs ih =>
    obtain ⟨hm, hi, hdt, hst⟩ := step_next_untouched hs
    obtain ⟨hm', hi', hdt', hst'⟩ := ih
    exact ⟨hm.trans hm', hi.trans hi', hdt.trans hdt', hst.trans hst'⟩

/-- A step pops no entry and keeps those in use. -/
theorem step_next_keeps_stack (h : step s = .next t) :
    s.sp.val ≤ t.sp.val ∧ ∀ j : Fin 16, j.val < s.sp.val → t.stackAt j = s.stackAt j := by
  obtain ⟨hsp, hst⟩ | ⟨-, hsp, hst⟩ := onlyCallMovesTheStack s t h
  · exact ⟨hsp ▸ le_rfl, fun j _ => by rw [State.stackAt, hst, State.stackAt]⟩
  · exact ⟨hsp ▸ Nat.le_succ _, fun j hj => hst j (Nat.ne_of_lt hj)⟩

/-- A run pops no entry and keeps those in use at launch. -/
theorem Reaches.keeps_stack (h : Reaches s t) :
    s.sp.val ≤ t.sp.val ∧ ∀ j : Fin 16, j.val < s.sp.val → t.stackAt j = s.stackAt j := by
  induction h with
  | launch => exact ⟨le_rfl, fun _ _ => rfl⟩
  | step _ hs ih =>
    obtain ⟨hle, hst⟩ := step_next_keeps_stack hs
    obtain ⟨hle', hst'⟩ := ih
    exact ⟨hle'.trans hle, fun j hj => (hst j (hj.trans_le hle')).trans (hst' j hj)⟩

/-! ## Where a run ends -/

/-- The two ways a step fails, with the error of each. -/
theorem step_eq_fault_iff {e : Fault} :
    step t = .fault e ↔ (e = .unknownInstruction (fetchOp t) ∧ decode (fetchOp t) = none) ∨
      (e = .stackOverflow ∧ (∃ nnn, decode (fetchOp t) = some (.call nnn)) ∧ t.sp.val = 16) := by
  cases e with
  | stackOverflow => simp [step_eq_stackOverflow_iff]
  | unknownInstruction op =>
    rw [step_eq_unknownInstruction_iff]
    constructor
    · rintro ⟨rfl, hd⟩
      exact .inl ⟨rfl, hd⟩
    · rintro (⟨he, hd⟩ | ⟨he, -⟩)
      · cases he
        exact ⟨rfl, hd⟩
      · cases he

/-- A step has a next state exactly if it returns no error. -/
theorem step_next_iff_no_fault : (∃ u, step t = .next u) ↔ ∀ e, step t ≠ .fault e := by
  constructor
  · rintro ⟨u, hu⟩ e he
    cases hu.symm.trans he
  · intro h
    obtain hover | hunknown | hnext := step_outcomes t
    · exact absurd hover (h _)
    · exact absurd hunknown (h _)
    · exact hnext

/-- A run from a state that fails reaches no other state. -/
theorem eq_of_reaches_of_step_fault {e : Fault} (hs : step s = .fault e) (h : Reaches s t) : t = s := by
  induction h with
  | launch => rfl
  | step _ hstep ih =>
    rw [ih, hs] at hstep
    cases hstep

theorem reaches_iff_reflTransGen : Reaches s t ↔ Relation.ReflTransGen (fun a b => step a = .next b) s t := by
  constructor <;> intro h
  · induction h with
    | launch => exact .refl
    | step _ hs ih => exact ih.tail hs
  · induction h with
    | refl => exact .launch
    | tail _ hs ih => exact .step ih hs

/-- Steps are deterministic, so of two states of one run one is reached from the other. -/
theorem Reaches.total (ht : Reaches s t) (hu : Reaches s u) : Reaches t u ∨ Reaches u t := by
  simp only [reaches_iff_reflTransGen] at ht hu ⊢
  exact ht.total_of_right_unique (fun _ _ _ hb hc => Host.Outcome.next.inj (hb.symm.trans hc)) hu

/-- A run ends in at most one state, with at most one error. -/
theorem EndsWith.unique {e f : Fault} (ht : EndsWith s t e) (hu : EndsWith s u f) : t = u ∧ e = f := by
  obtain ⟨hrt, het⟩ := ht
  obtain ⟨hru, hfu⟩ := hu
  have htu : t = u := (hrt.total hru).elim (fun h => (eq_of_reaches_of_step_fault het h).symm)
    (eq_of_reaches_of_step_fault hfu)
  subst htu
  exact ⟨rfl, Host.Outcome.fault.inj (het.symm.trans hfu)⟩

theorem hangs_iff_no_end : Hangs s ↔ ∀ (t : State) (e : Fault), ¬ EndsWith s t e := by
  simp only [Hangs, EndsWith, step_next_iff_no_fault, not_and]
  exact forall_congr' fun _ => forall_comm

end

/-! ## The statements -/

/-- Settles O44, one element after another. -/
theorem resetSetsEveryElement : Obligations.ResetSetsEveryElement :=
  fun _ => ⟨State.reset_readByte, State.reset_reg, rfl, State.reset_stackAt, rfl, rfl, rfl, rfl, rfl⟩

/-- Settles O10: the fetch reads the two bytes through the written memory. -/
theorem hostWriteIsSeenByNextFetch : Obligations.HostWriteIsSeenByNextFetch := by
  intro s a b hm ha
  rw [hiByte_fetchOp, loByte_fetchOp, hiByte_fetchOp, loByte_fetchOp]
  exact ⟨readByte_hostMemWrite_of_lt hm ha b _, readByte_hostMemWrite_of_lt hm ha b _⟩

/-- Settles O48: pc is RESET's, LOAD leaves it, and the fetch reads the image at ENTRY. -/
theorem bootStartsAtTheImage : Obligations.BootStartsAtTheImage := by
  intro s hi lo rest
  have hpc : (boot (hi :: lo :: rest) s).pc = 0x0200#16 := rfl
  refine ⟨hpc, ?_, readByte_boot _ s⟩
  simp [fetchOp, State.pcPlus, hpc, readByte_boot]

/-- Settles O52: each step keeps what the run keeps, and a run goes on exactly as long as no step fails. -/
theorem runsEndAtUnsupportedWordOrFullStackCall : Obligations.RunsEndAtUnsupportedWordOrFullStackCall := by
  refine fun s => ⟨fun t h => ?kept, fun t e => and_congr_right fun _ => step_eq_fault_iff,
    fun t e h => failedStepChangesNothing t e h.2, fun _ _ _ _ => EndsWith.unique, hangs_iff_no_end⟩
  case kept =>
    obtain ⟨hm, hi, hdt, hst⟩ := h.keeps_memory_and_timers
    exact ⟨hm, hi, hdt, hst, h.keeps_stack⟩

end Sys2Proof.Machine
end
